-- ==== Sys2Proof/Word.lean ====
section
/-! DEFINITION. The sizes of the machine's values (spec/00_scope.md R4, R5): all are unsigned. -/

namespace Sys2Proof

/-- A memory cell, a V register, a timer (R10, R17, R20). -/
abbrev Byte := BitVec 8

/-- An instruction word, PC, I, a stack entry, the instruction latch (R12, R14, R16, R18). -/
abbrev Word := BitVec 16

/-- The x, y and n fields of an instruction word (R48): a register number or a row count. -/
abbrev Nibble := BitVec 4

/-- The nnn field of an instruction word (R48): a 12-bit byte address. -/
abbrev Addr12 := BitVec 12

end Sys2Proof
end

