-- ==== Sys2Proof/Config.lean ====
section
/-! DEFINITION. The fixed parameters of the hardware (spec/00_scope.md R4), the parameters the
source leaves open, and the one free input of a cycle (R87). -/

namespace Sys2Proof

/-- `MEM_SIZE`: addresses 0x000 to 0xFFF (R4, R20). -/
abbrev memSize : Nat := 4096

/-- `PROG_BASE` (R4, R144). -/
abbrev progBase : Nat := 0x200

/-- `PROG_MAX`: the longest image `Load` accepts (R4, R144). -/
abbrev progMax : Nat := 3584

/-- `FONT_SIZE`: the font stands at 0x000 to 0x04F (R4, R141). -/
abbrev fontSize : Nat := 80

/-- `STACK_DEPTH` (R4, R16). -/
abbrev stackDepth : Nat := 16

/-- The 80 bytes of `FONT` (R141). -/
abbrev Font := Vector Byte 80

/-- `ANNN_POLICY` (R4, R60, D3): are the words 0xA000 to 0xAFFF an instruction? -/
inductive AnnnPolicy where
  /-- they are `LD I, nnn` (the default) -/
  | loadIndex
  /-- they are unrecognized -/
  | unknownOpcode
deriving DecidableEq, Repr

/-- `FX1E_WRAP` (R4, R91, D4): how `Fx1E` reduces its sum. -/
inductive Fx1eWrap where
  /-- to 12 bits (the default) -/
  | mod4096
  /-- to the 16 bits of I -/
  | mod65536
deriving DecidableEq, Repr

/-- `FX1E_VF` (R4, R91, D4): does `Fx1E` report its overflow in VF? -/
inductive Fx1eVf where
  /-- VF receives 1 when the sum exceeds 0x0FFF, else 0 (the default) -/
  | writesOverflow
  /-- VF is not written -/
  | unchanged
deriving DecidableEq, Repr

/-- `KEY_INDEX_POLICY` (R4, R105, D6): what a key number above 15 does. -/
inductive KeyIndexPolicy where
  /-- it raises `InvalidKeyIndex` (the default) -/
  | fault
  /-- its low four bits are the key number -/
  | mask4
deriving DecidableEq, Repr

/-- The parameters the source leaves open (the second table of R4), "each a named argument of the
model".  DESIGN CHOICE: log 1, they are a constant field of the state, so that a statement for
every state holds for every setting. -/
structure Config where
  font : Font
  annn : AnnnPolicy
  fx1eWrap : Fx1eWrap
  fx1eVf : Fx1eVf
  keyIndex : KeyIndexPolicy
deriving DecidableEq, Repr

/-- The free value behind `random_byte` (R87, D9): draw number k of the run.  It has no body, so
nothing is known of any draw and no law relates two of them.  DESIGN CHOICE: log 2. -/
opaque Config.randomByte : Nat → Byte

/-- The free value behind `stack[k]` for a k above 15, which names no entry (R16, U16).  It has no
body, so nothing is known of it; only states that no run reaches read it.  DESIGN CHOICE: log 5. -/
opaque Config.beyondStack : Byte → Word

end Sys2Proof
end

