-- ==== Sys2Proof/Syntax.lean ====
section
/-! DEFINITION. The instructions: one constructor per row of spec/opcode_table.json, in the order of
the opcode map (spec/30_encoding.md R52). The operands are the fields of R48. -/

namespace Sys2Proof

/-- The 34 instructions of R52, each with the operand fields of its pattern. -/
inductive Instr where
  /-- `00E0` CLS (R100) -/
  | cls
  /-- `00EE` RET (R65) -/
  | ret
  /-- `1nnn` JP nnn (R66) -/
  | jp (nnn : Addr12)
  /-- `2nnn` CALL nnn (R67) -/
  | call (nnn : Addr12)
  /-- `3xnn` SE Vx, nn (R70) -/
  | seImm (x : Nibble) (nn : Byte)
  /-- `4xnn` SNE Vx, nn (R71) -/
  | sneImm (x : Nibble) (nn : Byte)
  /-- `5xy0` SE Vx, Vy (R72) -/
  | seReg (x y : Nibble)
  /-- `6xnn` LD Vx, nn (R76) -/
  | ldImm (x : Nibble) (nn : Byte)
  /-- `7xnn` ADD Vx, nn (R77) -/
  | addImm (x : Nibble) (nn : Byte)
  /-- `8xy0` LD Vx, Vy (R78) -/
  | ldReg (x y : Nibble)
  /-- `8xy1` OR Vx, Vy (R79) -/
  | or (x y : Nibble)
  /-- `8xy2` AND Vx, Vy (R80) -/
  | and (x y : Nibble)
  /-- `8xy3` XOR Vx, Vy (R81) -/
  | xor (x y : Nibble)
  /-- `8xy4` ADD Vx, Vy (R82) -/
  | addReg (x y : Nibble)
  /-- `8xy5` SUB Vx, Vy (R83) -/
  | sub (x y : Nibble)
  /-- `8xy6` SHR Vx; y is encoded and selects nothing (R56, R84) -/
  | shr (x y : Nibble)
  /-- `8xy7` SUBN Vx, Vy (R85) -/
  | subn (x y : Nibble)
  /-- `8xyE` SHL Vx; y is encoded and selects nothing (R56, R86) -/
  | shl (x y : Nibble)
  /-- `9xy0` SNE Vx, Vy (R73) -/
  | sneReg (x y : Nibble)
  /-- `Annn` LD I, nnn (R90), an instruction under `ANNN_POLICY` = `load_index` (R60) -/
  | ldI (nnn : Addr12)
  /-- `Bnnn` JP V0, nnn (R68) -/
  | jpV0 (nnn : Addr12)
  /-- `Cxnn` RND Vx, nn (R87) -/
  | rnd (x : Nibble) (nn : Byte)
  /-- `Dxyn` DRW Vx, Vy, n (R101) -/
  | drw (x y n : Nibble)
  /-- `Ex9E` SKP Vx (R105) -/
  | skp (x : Nibble)
  /-- `ExA1` SKNP Vx (R106) -/
  | sknp (x : Nibble)
  /-- `Fx07` LD Vx, DT (R108) -/
  | ldVxDt (x : Nibble)
  /-- `Fx0A` LD Vx, K (R107) -/
  | ldVxK (x : Nibble)
  /-- `Fx15` LD DT, Vx (R109) -/
  | ldDtVx (x : Nibble)
  /-- `Fx18` LD ST, Vx (R110) -/
  | ldStVx (x : Nibble)
  /-- `Fx1E` ADD I, Vx (R91) -/
  | addI (x : Nibble)
  /-- `Fx29` LD F, Vx (R92) -/
  | ldF (x : Nibble)
  /-- `Fx33` LD B, Vx (R93) -/
  | ldB (x : Nibble)
  /-- `Fx55` LD [I], Vx (R94) -/
  | stRegs (x : Nibble)
  /-- `Fx65` LD Vx, [I] (R95) -/
  | ldRegs (x : Nibble)
deriving DecidableEq, Repr

end Sys2Proof
end

