-- ==== Sys2Proof/WellFormed.lean ====
section
/-! DEFINITION. Which terms of Instr are instructions of the machine. The operand types of Syntax
already bound every field (spec/30_encoding.md R48: every register number and immediate of a field is
in range, R10), so one check is left: `Annn` belongs to the instruction set only under
`ANNN_POLICY` = `load_index` (R60). -/

namespace Sys2Proof

/-- Is the term an instruction of the machine under this `ANNN_POLICY`? (R52, R60) -/
def Instr.wellFormed (p : AnnnPolicy) : Instr → Bool
  | .ldI _ => p = .loadIndex
  | .cls | .ret | .jp _ | .call _ | .seImm _ _ | .sneImm _ _ | .seReg _ _ | .ldImm _ _
  | .addImm _ _ | .ldReg _ _ | .or _ _ | .and _ _ | .xor _ _ | .addReg _ _ | .sub _ _ | .shr _ _
  | .subn _ _ | .shl _ _ | .sneReg _ _ | .jpV0 _ | .rnd _ _ | .drw _ _ _ | .skp _ | .sknp _
  | .ldVxDt _ | .ldVxK _ | .ldDtVx _ | .ldStVx _ | .addI _ | .ldF _ | .ldB _ | .stRegs _
  | .ldRegs _ => true

end Sys2Proof
end

