-- ==== Sys2Proof/Decode.lean ====
section
/-! DEFINITION. The decoder and the encoder (spec/30_encoding.md R47 to R60). Decoding is a function
of the word and of ANNN_POLICY alone (R59); a word no row matches is refused as unrecognized (R53). -/

namespace Sys2Proof

/-- The op field, bits 15 to 12 (R48). -/
def fieldOp (w : Word) : Nibble := w.extractLsb' 12 4

/-- The x field, bits 11 to 8 (R48). -/
def fieldX (w : Word) : Nibble := w.extractLsb' 8 4

/-- The y field, bits 7 to 4 (R48). -/
def fieldY (w : Word) : Nibble := w.extractLsb' 4 4

/-- The n field, bits 3 to 0 (R48). -/
def fieldN (w : Word) : Nibble := w.extractLsb' 0 4

/-- The nn field, bits 7 to 0 (R48). -/
def fieldNn (w : Word) : Byte := w.extractLsb' 0 8

/-- The nnn field, bits 11 to 0 (R48). -/
def fieldNnn (w : Word) : Addr12 := w.extractLsb' 0 12

/-- Group 0: `00E0` and `00EE` match one word each (R51, C2). -/
def decodeGroup0 (nnn : Addr12) : Option Instr :=
  match nnn with
  | 0x0E0#12 => some .cls
  | 0x0EE#12 => some .ret
  | _ => none

/-- Group 8, selected by n (R52); n in 8 to D and F is unrecognized (R53). -/
def decodeGroup8 (x y n : Nibble) : Option Instr :=
  match n with
  | 0x0#4 => some (.ldReg x y)
  | 0x1#4 => some (.or x y)
  | 0x2#4 => some (.and x y)
  | 0x3#4 => some (.xor x y)
  | 0x4#4 => some (.addReg x y)
  | 0x5#4 => some (.sub x y)
  | 0x6#4 => some (.shr x y)
  | 0x7#4 => some (.subn x y)
  | 0xE#4 => some (.shl x y)
  | _ => none

/-- Group E, selected by nn (R52, R53). -/
def decodeGroupE (x : Nibble) (nn : Byte) : Option Instr :=
  match nn with
  | 0x9E#8 => some (.skp x)
  | 0xA1#8 => some (.sknp x)
  | _ => none

/-- Group F, selected by nn (R52, R53). -/
def decodeGroupF (x : Nibble) (nn : Byte) : Option Instr :=
  match nn with
  | 0x07#8 => some (.ldVxDt x)
  | 0x0A#8 => some (.ldVxK x)
  | 0x15#8 => some (.ldDtVx x)
  | 0x18#8 => some (.ldStVx x)
  | 0x1E#8 => some (.addI x)
  | 0x29#8 => some (.ldF x)
  | 0x33#8 => some (.ldB x)
  | 0x55#8 => some (.stRegs x)
  | 0x65#8 => some (.ldRegs x)
  | _ => none

/-- The instruction a word selects (R51, R52), or none when the word is unrecognized (R53).
Literal digits are all significant (C2, D5; DESIGN CHOICE, log 27); op 0xA follows `ANNN_POLICY`
(R60; PRESUMED, log 6). -/
def decodeWord (p : AnnnPolicy) (w : Word) : Option Instr :=
  match fieldOp w with
  | 0x0#4 => decodeGroup0 (fieldNnn w)
  | 0x1#4 => some (.jp (fieldNnn w))
  | 0x2#4 => some (.call (fieldNnn w))
  | 0x3#4 => some (.seImm (fieldX w) (fieldNn w))
  | 0x4#4 => some (.sneImm (fieldX w) (fieldNn w))
  | 0x5#4 => if fieldN w = 0 then some (.seReg (fieldX w) (fieldY w)) else none
  | 0x6#4 => some (.ldImm (fieldX w) (fieldNn w))
  | 0x7#4 => some (.addImm (fieldX w) (fieldNn w))
  | 0x8#4 => decodeGroup8 (fieldX w) (fieldY w) (fieldN w)
  | 0x9#4 => if fieldN w = 0 then some (.sneReg (fieldX w) (fieldY w)) else none
  | 0xA#4 => if p = .loadIndex then some (.ldI (fieldNnn w)) else none
  | 0xB#4 => some (.jpV0 (fieldNnn w))
  | 0xC#4 => some (.rnd (fieldX w) (fieldNn w))
  | 0xD#4 => some (.drw (fieldX w) (fieldY w) (fieldN w))
  | 0xE#4 => decodeGroupE (fieldX w) (fieldNn w)
  | _ => decodeGroupF (fieldX w) (fieldNn w)

/-- Why bytes are no instruction. -/
inductive DecodeError where
  /-- fewer than the two bytes of an instruction (R47) -/
  | truncated
  /-- the word matches no row of the opcode map (R53) -/
  | unrecognized (w : Word)
deriving DecidableEq, Repr

/-- The word of two consecutive bytes, the one at the lower address first: big-endian (R30). -/
def wordOfBytes (hi lo : Byte) : Word := hi ++ lo

/-- The byte of a word that stands at the lower address (R30). -/
def highByte (w : Word) : Byte := w.extractLsb' 8 8

/-- The byte of a word that stands at the higher address (R30). -/
def lowByte (w : Word) : Byte := w.extractLsb' 0 8

/-- The instruction at the head of some bytes, with the bytes after it. -/
def decode (p : AnnnPolicy) : List Byte → Except DecodeError (Instr × List Byte)
  | hi :: lo :: rest =>
    match decodeWord p (wordOfBytes hi lo) with
    | some i => .ok (i, rest)
    | none => .error (.unrecognized (wordOfBytes hi lo))
  | _ => .error .truncated

/-- A word of format NNN (R49). -/
def wordNnn (op : Nibble) (nnn : Addr12) : Word := op ++ nnn

/-- A word of format XNN or XKK (R49). -/
def wordXnn (op x : Nibble) (nn : Byte) : Word := op ++ (x ++ nn)

/-- A word of format XYN (R49). -/
def wordXyn (op x y n : Nibble) : Word := op ++ (x ++ (y ++ n))

/-- The word of an instruction, from the patterns of R52. -/
def encode : Instr → Word
  | .cls => 0x00E0
  | .ret => 0x00EE
  | .jp nnn => wordNnn 0x1 nnn
  | .call nnn => wordNnn 0x2 nnn
  | .seImm x nn => wordXnn 0x3 x nn
  | .sneImm x nn => wordXnn 0x4 x nn
  | .seReg x y => wordXyn 0x5 x y 0x0
  | .ldImm x nn => wordXnn 0x6 x nn
  | .addImm x nn => wordXnn 0x7 x nn
  | .ldReg x y => wordXyn 0x8 x y 0x0
  | .or x y => wordXyn 0x8 x y 0x1
  | .and x y => wordXyn 0x8 x y 0x2
  | .xor x y => wordXyn 0x8 x y 0x3
  | .addReg x y => wordXyn 0x8 x y 0x4
  | .sub x y => wordXyn 0x8 x y 0x5
  | .shr x y => wordXyn 0x8 x y 0x6
  | .subn x y => wordXyn 0x8 x y 0x7
  | .shl x y => wordXyn 0x8 x y 0xE
  | .sneReg x y => wordXyn 0x9 x y 0x0
  | .ldI nnn => wordNnn 0xA nnn
  | .jpV0 nnn => wordNnn 0xB nnn
  | .rnd x nn => wordXnn 0xC x nn
  | .drw x y n => wordXyn 0xD x y n
  | .skp x => wordXnn 0xE x 0x9E
  | .sknp x => wordXnn 0xE x 0xA1
  | .ldVxDt x => wordXnn 0xF x 0x07
  | .ldVxK x => wordXnn 0xF x 0x0A
  | .ldDtVx x => wordXnn 0xF x 0x15
  | .ldStVx x => wordXnn 0xF x 0x18
  | .addI x => wordXnn 0xF x 0x1E
  | .ldF x => wordXnn 0xF x 0x29
  | .ldB x => wordXnn 0xF x 0x33
  | .stRegs x => wordXnn 0xF x 0x55
  | .ldRegs x => wordXnn 0xF x 0x65

/-- The two bytes of an instruction as memory holds them (R30, R47). -/
def encodeBytes (i : Instr) : List Byte := [highByte (encode i), lowByte (encode i)]

/-- The word the opcode table numbers as `w`: its low `nbits` bits, the bits above them 0. -/
def tableWord (nbits w : Nat) : Word := BitVec.ofNat 16 (w % 2 ^ nbits)

/-- The instruction the decoder reads from the word the opcode table numbers as `w`, laid out in
bytes as memory holds it, under the default `ANNN_POLICY` (R60). -/
def decodeTableWord (nbits w : Nat) : Option Instr :=
  match decode .loadIndex [highByte (tableWord nbits w), lowByte (tableWord nbits w)] with
  | .ok (i, _) => some i
  | .error _ => none

/-- One row of the opcode map: a word selects it when `word & mask == value` (R51). -/
structure OpcodeRow where
  mnemonic : String
  mask : Word
  value : Word
deriving DecidableEq, Repr

/-- The opcode map, row by row as R52 lists mask and match. -/
def opcodeMap : List OpcodeRow :=
  [⟨"CLS", 0xFFFF, 0x00E0⟩,
   ⟨"RET", 0xFFFF, 0x00EE⟩,
   ⟨"JP", 0xF000, 0x1000⟩,
   ⟨"CALL", 0xF000, 0x2000⟩,
   ⟨"SE_imm", 0xF000, 0x3000⟩,
   ⟨"SNE_imm", 0xF000, 0x4000⟩,
   ⟨"SE_reg", 0xF00F, 0x5000⟩,
   ⟨"LD_imm", 0xF000, 0x6000⟩,
   ⟨"ADD_imm", 0xF000, 0x7000⟩] ++
  [⟨"LD_reg", 0xF00F, 0x8000⟩,
   ⟨"OR", 0xF00F, 0x8001⟩,
   ⟨"AND", 0xF00F, 0x8002⟩,
   ⟨"XOR", 0xF00F, 0x8003⟩,
   ⟨"ADD_reg", 0xF00F, 0x8004⟩,
   ⟨"SUB", 0xF00F, 0x8005⟩,
   ⟨"SHR", 0xF00F, 0x8006⟩,
   ⟨"SUBN", 0xF00F, 0x8007⟩,
   ⟨"SHL", 0xF00F, 0x800E⟩] ++
  [⟨"SNE_reg", 0xF00F, 0x9000⟩,
   ⟨"LD_I", 0xF000, 0xA000⟩,
   ⟨"JP_V0", 0xF000, 0xB000⟩,
   ⟨"RND", 0xF000, 0xC000⟩,
   ⟨"DRW", 0xF000, 0xD000⟩,
   ⟨"SKP", 0xF0FF, 0xE09E⟩,
   ⟨"SKNP", 0xF0FF, 0xE0A1⟩,
   ⟨"LD_Vx_DT", 0xF0FF, 0xF007⟩,
   ⟨"LD_Vx_K", 0xF0FF, 0xF00A⟩] ++
  [⟨"LD_DT_Vx", 0xF0FF, 0xF015⟩,
   ⟨"LD_ST_Vx", 0xF0FF, 0xF018⟩,
   ⟨"ADD_I", 0xF0FF, 0xF01E⟩,
   ⟨"LD_F", 0xF0FF, 0xF029⟩,
   ⟨"LD_B", 0xF0FF, 0xF033⟩,
   ⟨"ST_regs", 0xF0FF, 0xF055⟩,
   ⟨"LD_regs", 0xF0FF, 0xF065⟩]

/-- The word selects the row (R51). -/
def OpcodeRow.selects (r : OpcodeRow) (w : Word) : Bool := w &&& r.mask == r.value

/-- The id of the row of R52 an instruction stands for. -/
def Instr.mnemonic : Instr → String
  | .cls => "CLS"
  | .ret => "RET"
  | .jp _ => "JP"
  | .call _ => "CALL"
  | .seImm _ _ => "SE_imm"
  | .sneImm _ _ => "SNE_imm"
  | .seReg _ _ => "SE_reg"
  | .ldImm _ _ => "LD_imm"
  | .addImm _ _ => "ADD_imm"
  | .ldReg _ _ => "LD_reg"
  | .or _ _ => "OR"
  | .and _ _ => "AND"
  | .xor _ _ => "XOR"
  | .addReg _ _ => "ADD_reg"
  | .sub _ _ => "SUB"
  | .shr _ _ => "SHR"
  | .subn _ _ => "SUBN"
  | .shl _ _ => "SHL"
  | .sneReg _ _ => "SNE_reg"
  | .ldI _ => "LD_I"
  | .jpV0 _ => "JP_V0"
  | .rnd _ _ => "RND"
  | .drw _ _ _ => "DRW"
  | .skp _ => "SKP"
  | .sknp _ => "SKNP"
  | .ldVxDt _ => "LD_Vx_DT"
  | .ldVxK _ => "LD_Vx_K"
  | .ldDtVx _ => "LD_DT_Vx"
  | .ldStVx _ => "LD_ST_Vx"
  | .addI _ => "ADD_I"
  | .ldF _ => "LD_F"
  | .ldB _ => "LD_B"
  | .stRegs _ => "ST_regs"
  | .ldRegs _ => "LD_regs"

end Sys2Proof
end

