-- ==== Sys2Proof/Machine/Defaults.lean ====
section
/-! DEFINITION. The default of every parameter the source leaves open (spec/00_scope.md R4) and the
constants of reset (R140 to R142). -/

namespace Sys2Proof.Machine

/-- `RESET_PC` (R4, R142). -/
def resetPc : Word := 0x200

/-- The default `FONT`, glyph after glyph as the table of R141 lists them.  PRESUMED by the spec
(D8, "from general knowledge"): log 7. -/
def defaultFont : Font :=
  #v[0xF0, 0x90, 0x90, 0x90, 0xF0,  0x20, 0x60, 0x20, 0x20, 0x70,
     0xF0, 0x10, 0xF0, 0x80, 0xF0,  0xF0, 0x10, 0xF0, 0x10, 0xF0,
     0x90, 0x90, 0xF0, 0x10, 0x10,  0xF0, 0x80, 0xF0, 0x10, 0xF0,
     0xF0, 0x80, 0xF0, 0x90, 0xF0,  0xF0, 0x10, 0x20, 0x40, 0x40,
     0xF0, 0x90, 0xF0, 0x90, 0xF0,  0xF0, 0x90, 0xF0, 0x10, 0xF0,
     0xF0, 0x90, 0xF0, 0x90, 0x90,  0xE0, 0x90, 0xE0, 0x90, 0xE0,
     0xF0, 0x80, 0x80, 0x80, 0xF0,  0xE0, 0x90, 0x90, 0x90, 0xE0,
     0xF0, 0x80, 0xF0, 0x80, 0xF0,  0xF0, 0x80, 0xF0, 0x80, 0x80]

/-- Every parameter at the default the spec decides (R4).  DESIGN CHOICE (D3, D4, D6, D8): log 1. -/
def defaultConfig : Config where
  font := defaultFont
  annn := .loadIndex
  fx1eWrap := .mod4096
  fx1eVf := .writesOverflow
  keyIndex := .fault

end Sys2Proof.Machine
end

