-- ==== Sys2Proof/Machine/Memory.lean ====
section
/-! DEFINITION. The memory image (spec/10_state.md R20, spec/20_memory.md R35): a list of address
and byte pairs in one canonical form, over what `Init` leaves at every address (R140). -/

namespace Sys2Proof.Machine

/-- Memory as data: the bytes that differ from what `Init` leaves (DESIGN CHOICE, log 13). -/
abbrev Memory := List Host.Cell

/-- What an unlisted address reads as: the contents after `Init`, the font at 0x000 to 0x04F and 0
everywhere else (R25, R140, R141). -/
def Memory.background (font : Font) (a : Nat) : Byte :=
  if h : a < fontSize then font[a] else 0

/-- The byte listed for an address. -/
def Memory.lookup : Memory → Nat → Option Byte
  | [], _ => none
  | (b, v) :: rest, a => if a = b then some v else Memory.lookup rest a

/-- `MemRead(a, 1)` for an address of the memory (R6). -/
def Memory.read (font : Font) (m : Memory) (a : Nat) : Byte :=
  (Memory.lookup m a).getD (Memory.background font a)

/-- Put a cell in its place in the list, or replace the one there. -/
def Memory.insert : Memory → Nat → Byte → Memory
  | [], a, v => [(a, v)]
  | (b, u) :: rest, a, v =>
    if a < b then (a, v) :: (b, u) :: rest
    else if a = b then (a, v) :: rest
    else (b, u) :: Memory.insert rest a v

/-- Take an address out of the list. -/
def Memory.erase : Memory → Nat → Memory
  | [], _ => []
  | (b, u) :: rest, a => if a = b then rest else (b, u) :: Memory.erase rest a

/-- `MemWrite(a, 1, v)` for an address of the memory (R6); writing what an unlisted address reads
as takes the entry out, so that equal memories are equal lists. -/
def Memory.write (font : Font) (m : Memory) (a : Nat) (v : Byte) : Memory :=
  if v = Memory.background font a then Memory.erase m a else Memory.insert m a v

/-- The canonical form: addresses strictly rising, all of the memory (R20), and no entry equal to
what an unlisted address reads as. -/
abbrev Memory.wf (font : Font) (m : Memory) : Prop :=
  m.Pairwise (fun c d => c.1 < d.1) ∧ ∀ c ∈ m, c.1 < memSize ∧ c.2 ≠ Memory.background font c.1

end Sys2Proof.Machine
end

