-- ==== Sys2Proof/Machine/State.lean ====
section
/-! DEFINITION. The state of the core (spec/10_state.md R10 to R22, R24), the reasons a cycle can
stop, and the state after reset (R25, R140). -/

namespace Sys2Proof.Machine

/-- The display buffer: 32 rows of 64 one-bit cells, row 0 at the top, column 0 at the left (R21;
PRESUMED, log 8, DESIGN CHOICE, log 16). -/
abbrev Gfx := Vector (Vector Bool 64) 32

/-- Everything the spec gives the machine (R10 to R22), with the parameters of R4 (DESIGN CHOICE,
log 1) and the counter behind the free value of R87 (DESIGN CHOICE, log 2). -/
structure State where
  /-- V0 to VF; VF is also the flag (R10, R11) -/
  regs : Vector Byte 16
  /-- the index register I (R14) -/
  i : Word
  /-- the program counter PC (R12) -/
  pc : Word
  /-- the stack pointer SP: the number of entries on the stack (R15) -/
  sp : Byte
  /-- the return stack (R16) -/
  stack : Vector Word 16
  /-- delay_timer (R17) -/
  dt : Byte
  /-- sound_timer (R17) -/
  st : Byte
  /-- the instruction latch the source calls `opcode` (R18) -/
  ir : Word
  /-- the redraw flag (R19) -/
  dirty : Bool
  /-- the memory image (R20) -/
  mem : Memory
  /-- the display buffer (R21) -/
  gfx : Gfx
  /-- the key state (R22) -/
  keys : Vector Bool 16
  /-- the parameters of R4, which nothing writes (DESIGN CHOICE, log 1) -/
  cfg : Config
  /-- how many random bytes have been drawn: the model's own counter
  (DESIGN CHOICE, log 2 and log 3) -/
  draws : Nat
deriving DecidableEq, Repr

/-- The error outcomes of a cycle, exactly those of R115. Each is a fault of the run (R126, U17; DEDUCED,
log 4) and safe: the model stops where a host may go on, and `afterCycle` says what state the core
is left in. -/
inductive Fault where
  /-- the fetched word matches no row of the opcode map (R116); raised by a step's decode; safe -/
  | unknownOpcode (word : Word)
  /-- a call with SP already 16 (R117); raised by CALL; safe -/
  | stackOverflow
  /-- a return with SP 0 (R118); raised by RET; safe -/
  | stackUnderflow
  /-- an access that would touch this address, 4096 or more (R119); raised by the fetch, DRW, LD_B,
  ST_regs and LD_regs; safe -/
  | memoryOutOfBounds (addr : Nat)
  /-- a key number above 15 under `KEY_INDEX_POLICY` = `fault` (R120); raised by SKP and SKNP; safe -/
  | invalidKeyIndex (v : Byte)
deriving DecidableEq, Repr

/-- Why a step has no meaning. No meaning answers with one: every instruction is modelled. -/
inductive Refusal where
  /-- raised by an arm of exec whose instruction has no meaning yet, of which there is none; safe -/
  | notModelled (mnemonic : String)
deriving DecidableEq, Repr

/-- The state right after `Init` with every parameter at its default (R25, R140): there is no state
before it (R143; DEDUCED, log 14). -/
def State.reset : State where
  regs := Vector.replicate 16 0
  i := 0
  pc := resetPc
  sp := 0
  stack := Vector.replicate 16 0
  dt := 0
  st := 0
  ir := 0
  dirty := true
  mem := []
  gfx := Vector.replicate 32 (Vector.replicate 64 false)
  keys := Vector.replicate 16 false
  cfg := defaultConfig
  draws := 0

end Sys2Proof.Machine
end

