-- ==== Sys2Proof/Machine/Ops.lean ====
section
/-! DEFINITION. The named operations over the state: one update per field, the registers, memory
and its bounds check, the stack, the ways an instruction ends, and raising an error. -/

namespace Sys2Proof.Machine

/-- What one cycle, or the meaning of one instruction, answers. -/
abbrev Result := Host.Outcome State Fault Refusal

/-! ### One update per field -/

def State.setRegs (s : State) (r : Vector Byte 16) : State := { s with regs := r }
def State.setI (s : State) (a : Word) : State := { s with i := a }
def State.setPc (s : State) (a : Word) : State := { s with pc := a }
def State.setSp (s : State) (n : Byte) : State := { s with sp := n }
def State.setStack (s : State) (k : Vector Word 16) : State := { s with stack := k }
def State.setDt (s : State) (n : Byte) : State := { s with dt := n }
def State.setSt (s : State) (n : Byte) : State := { s with st := n }
def State.setIr (s : State) (w : Word) : State := { s with ir := w }
def State.setDirty (s : State) (b : Bool) : State := { s with dirty := b }
def State.setMem (s : State) (m : Memory) : State := { s with mem := m }
def State.setGfx (s : State) (g : Gfx) : State := { s with gfx := g }
def State.setKeys (s : State) (k : Vector Bool 16) : State := { s with keys := k }
def State.setDraws (s : State) (n : Nat) : State := { s with draws := n }

/-! ### The general registers (R10) -/

/-- The number of VF (R11). -/
def vf : Nibble := 0xF

/-- `V[x]` (R6). -/
def State.v (s : State) (x : Nibble) : Byte := s.regs[x.toNat]'x.isLt

/-- `V[x] <- b` (R6). -/
def State.setV (s : State) (x : Nibble) (b : Byte) : State :=
  s.setRegs (s.regs.set x.toNat b x.isLt)

/-- The values of V[0] up to and including V[x] (R94). -/
def State.regsUpTo (s : State) (x : Nibble) : List Byte := s.regs.toList.take (x.toNat + 1)

/-- Write bytes to consecutive registers from register k on (R95). -/
def fillRegs (r : Vector Byte 16) (k : Nat) : List Byte → Vector Byte 16
  | [] => r
  | b :: bs => fillRegs (r.setIfInBounds k b) (k + 1) bs

/-! ### How an instruction ends -/

/-- Raising an error: nothing is entered, nothing is saved, the outcome goes to the host (R125). -/
def raise (f : Fault) : Result := .fault f

/-- The cycle is done and PC goes on by this many bytes, mod 65536 (R12, R13, D20;
DESIGN CHOICE, log 19). -/
def advance (n : Word) (s : State) : Result := .next (s.setPc (s.pc + n))

/-- The cycle is done and PC goes to the next instruction: PC <- PC + 2 (R13). -/
def nextInstr (s : State) : Result := advance 2 s

/-- The cycle is done and PC is the target; targets are not checked here (spec/40_control_flow.md). -/
def jumpTo (a : Word) (s : State) : Result := .next (s.setPc a)

/-- The skip: PC + 4 when the condition holds, else PC + 2 (spec/41_skip.md). -/
def skipIf (c : Bool) (s : State) : Result := advance (if c then 4 else 2) s

/-! ### Memory -/

/-- `MemRead(a, 1)` (R6). -/
def State.readByte (s : State) (a : Nat) : Byte := Memory.read s.cfg.font s.mem a

/-- `MemWrite(a, 1, b)` (R6). -/
def State.storeByte (s : State) (a : Nat) (b : Byte) : State :=
  s.setMem (Memory.write s.cfg.font s.mem a b)

/-- The `n` bytes from an address on, at consecutive addresses (R33, R42). -/
def State.loadBytes (s : State) (a n : Nat) : List Byte :=
  (List.range n).map (fun k => s.readByte (a + k))

/-- Store bytes at consecutive addresses (R33, R42). -/
def State.storeBytes (s : State) (a : Nat) : List Byte → State
  | [] => s
  | b :: bs => (s.storeByte a b).storeBytes (a + 1) bs

/-- The bounds check of a whole access of `n` bytes, before any effect (R36, D1; DESIGN
CHOICE, log 12): it raises `MemoryOutOfBounds` of the lowest address the access would touch outside
the memory. Addresses are natural numbers, never reduced. An access of no byte touches none. -/
def inBounds (a n : Nat) (k : Result) : Result :=
  if n = 0 ∨ a + n ≤ memSize then k else raise (.memoryOutOfBounds (max a memSize))

/-! ### The return stack (R15, R16) -/

/-- `stack[SP] <- a; SP <- SP + 1` (R67). -/
def State.push (s : State) (a : Word) : State :=
  (s.setStack (s.stack.setIfInBounds s.sp.toNat a)).setSp (s.sp + 1)

/-- `SP <- SP - 1` (R65); the entry is not erased (R16, D29; DESIGN CHOICE, log 25). -/
def State.drop (s : State) : State := s.setSp (s.sp - 1)

/-- `stack[SP]` (R16). An SP above 15 names no entry: what is read there is a free value (U16;
DESIGN CHOICE, log 5). -/
def State.stackAtSp (s : State) : Word := s.stack[s.sp.toNat]?.getD (Config.beyondStack s.sp)

/-! ### The free input (R87) -/

/-- The random byte of this cycle. -/
def State.randomByte (s : State) : Byte := Config.randomByte s.draws

/-- The random byte has been drawn: the next draw is another one. -/
def State.countDraw (s : State) : State := s.setDraws (s.draws + 1)

end Sys2Proof.Machine
end

