-- ==== Sys2Proof/Machine/Operands.lean ====
section
/-! DEFINITION. The operand forms of spec/30_encoding.md R50: an immediate as the unsigned value of
its field, I as the base of a data access (R42), and a register as a key number (R105). The register
forms V[x] and V[y] are State.v. -/

namespace Sys2Proof.Machine

/-- An nnn field as an address: zero-extended to 16 bits, not scaled (R50). -/
def addrOf (nnn : Addr12) : Word := nnn.setWidth 16

/-- A byte zero-extended to 16 bits (R68, R91, R92). -/
def zext16 (b : Byte) : Word := b.setWidth 16

/-- The base of every data access: I, as a natural number (R42). -/
def State.base (s : State) : Nat := s.i.toNat

/-- A register's value as a key number (R105, R106, D6; DESIGN CHOICE, log 10): above 15 it raises
`InvalidKeyIndex`, or its low four bits count, as `KEY_INDEX_POLICY` says; then `k` goes on with the
state of that key. -/
def withKey (s : State) (v : Byte) (k : Bool → Result) : Result :=
  match s.cfg.keyIndex with
  | .fault => if h : v.toNat < 16 then k s.keys[v.toNat] else raise (.invalidKeyIndex v)
  | .mask4 => k (s.keys[v.toNat % 16]'(Nat.mod_lt _ (by decide)))

/-- The least key number pressed, if any key is (R107). -/
def State.firstKey (s : State) : Option (Fin 16) := (List.finRange 16).find? (fun k => s.keys[k])

end Sys2Proof.Machine
end

