-- ==== Sys2Proof/Machine/Control.lean ====
section
/-! DEFINITION. The control flow instructions (spec/40_control_flow.md). Targets are not checked when
the transfer executes: a fetch that cannot succeed faults in the next cycle. -/

namespace Sys2Proof.Machine

/-- `00EE` RET (R65): PC is the popped entry plus 2. -/
def execRet (s : State) : Result :=
  if s.sp = 0 then raise .stackUnderflow
  else jumpTo (s.drop.stackAtSp + 2) s.drop

/-- `1nnn` JP nnn (R66). -/
def execJp (nnn : Addr12) (s : State) : Result := jumpTo (addrOf nnn) s

/-- `2nnn` CALL nnn (R67): the entry pushed is the address of this instruction itself. -/
def execCall (nnn : Addr12) (s : State) : Result :=
  if s.sp.toNat ≥ stackDepth then raise .stackOverflow else jumpTo (addrOf nnn) (s.push s.pc)

/-- `Bnnn` JP V0, nnn (R68): the sum is not reduced to 12 bits. -/
def execJpV0 (nnn : Addr12) (s : State) : Result := jumpTo (zext16 (s.v 0) + addrOf nnn) s

end Sys2Proof.Machine
end

