-- ==== Sys2Proof/Machine/Flags.lean ====
section
/-! DEFINITION. The flag computations: VF receives 0 or 1 (spec/10_state.md R11, spec/42_load_alu.md
R75). -/

namespace Sys2Proof.Machine

/-- A condition as the value VF receives. -/
def flagByte (b : Bool) : Byte := if b then 1 else 0

/-- The carry of an addition: the true sum exceeds 255 (R75, R82). -/
def carries (a b : Byte) : Bool := a.toNat + b.toNat > 255

/-- No borrow: the minuend is not less than the subtrahend (R75, R83, R85). -/
def noBorrow (a b : Byte) : Bool := a.toNat ≥ b.toNat

/-- The bit a right shift by one shifts out: bit 0 (R84). -/
def lowBit (a : Byte) : Bool := a.getLsbD 0

/-- The bit a left shift by one shifts out: bit 7 (R86). -/
def topBit (a : Byte) : Bool := a.getLsbD 7

/-- The overflow check of `Fx1E`: the sum exceeds 0x0FFF (R91, D4; PRESUMED, log 9). -/
def exceeds12 (sum : Nat) : Bool := sum > 0x0FFF

end Sys2Proof.Machine
end

