-- ==== Sys2Proof/Machine/Display.lean ====
section
/-! DEFINITION. The display instructions (spec/44_display.md). -/

namespace Sys2Proof.Machine

/-- The cell at a row and a column: on or off (R21). -/
def Gfx.cell (g : Gfx) (row : Fin 32) (col : Fin 64) : Bool := g[row][col]

/-- Exclusive or of 1 into a cell (R101). -/
def Gfx.flip (g : Gfx) (row : Fin 32) (col : Fin 64) : Gfx :=
  g.set row (g[row].set col (!g[row][col]))

/-- The display with every cell off (R100). -/
def blankGfx : Gfx := Vector.replicate 32 (Vector.replicate 64 false)

/-- The display row of sprite row r when the top row is drawn at cy: wrapped (R103). -/
def rowOf (cy r : Nat) : Fin 32 := ⟨(cy + r) % 32, Nat.mod_lt _ (by decide)⟩

/-- The display column of sprite column c when the left column is drawn at cx: wrapped (R103). -/
def colOf (cx c : Nat) : Fin 64 := ⟨(cx + c) % 64, Nat.mod_lt _ (by decide)⟩

/-- Draw one sprite bit that is 1: a cell that was on goes off, which is a collision; the flag is
sticky (R104). -/
def plot (row : Fin 32) (col : Fin 64) (p : Gfx × Bool) : Gfx × Bool :=
  (Gfx.flip p.1 row col, p.2 || Gfx.cell p.1 row col)

/-- Draw one sprite row: sprite column c is bit 7 - c of its byte (R102, D7; PRESUMED, log 8). -/
def drawRow (cx : Nat) (row : Fin 32) (b : Byte) (p : Gfx × Bool) : Gfx × Bool :=
  (List.range 8).foldl (fun q c => if b.getLsbD (7 - c) then plot row (colOf cx c) q else q) p

/-- Draw sprite rows from sprite row r on, top to bottom (R101). -/
def drawRows (cx cy : Nat) : Nat → List Byte → Gfx × Bool → Gfx × Bool
  | _, [], p => p
  | r, b :: bs, p => drawRows cx cy (r + 1) bs (drawRow cx (rowOf cy r) b p)

/-- The display and the collision flag after a sprite of n rows at I is drawn at column V[x] and row
V[y] (R101). -/
def State.drawn (s : State) (x y n : Nibble) : Gfx × Bool :=
  drawRows (s.v x).toNat (s.v y).toNat 0 (s.loadBytes s.base n.toNat) (s.gfx, false)

/-- `00E0` CLS (R100). -/
def execCls (s : State) : Result := nextInstr ((s.setGfx blankGfx).setDirty true)

/-- `Dxyn` DRW Vx, Vy, n (R101): V[x] and V[y] are read before VF is written; VF and the dirty flag
are written whatever was drawn (C1, D23). -/
def execDrw (x y n : Nibble) (s : State) : Result :=
  inBounds s.base n.toNat
    (nextInstr
      (((s.setGfx (s.drawn x y n).1).setV vf (flagByte (s.drawn x y n).2)).setDirty true))

end Sys2Proof.Machine
end

