-- ==== Sys2Proof/Machine/IndexMemory.lean ====
section
/-! DEFINITION. The index register and the memory instructions (spec/43_index_memory.md). The bounds
check of a whole access precedes every effect (R36). -/

namespace Sys2Proof.Machine

/-- `Annn` LD I, nnn (R90; PRESUMED, log 6). -/
def execLdI (nnn : Addr12) (s : State) : Result := nextInstr (s.setI (addrOf nnn))

/-- The sum of `Fx1E` as I receives it, under `FX1E_WRAP` (R91, D4; PRESUMED, log 9). -/
def wrapIndex (w : Fx1eWrap) (sum : Nat) : Word :=
  match w with
  | .mod4096 => BitVec.ofNat 16 (sum % 4096)
  | .mod65536 => BitVec.ofNat 16 (sum % 65536)

/-- What `Fx1E` does to VF, under `FX1E_VF` (R91, D4; PRESUMED, log 9). -/
def reportOverflow (sum : Nat) (s : State) : State :=
  match s.cfg.fx1eVf with
  | .writesOverflow => s.setV vf (flagByte (exceeds12 sum))
  | .unchanged => s

/-- `Fx1E` ADD I, Vx (R91): V[x] is read once, before VF is written. -/
def execAddI (x : Nibble) (s : State) : Result :=
  let sum := s.i.toNat + (s.v x).toNat
  nextInstr (reportOverflow sum (s.setI (wrapIndex s.cfg.fx1eWrap sum)))

/-- `Fx29` LD F, Vx (R92): all 8 bits of V[x] take part. -/
def execLdF (x : Nibble) (s : State) : Result := nextInstr (s.setI (zext16 (s.v x) * 5))

/-- The three decimal digits of a byte, hundreds first (R93). -/
def decimalDigits (b : Byte) : List Byte :=
  [BitVec.ofNat 8 (b.toNat / 100), BitVec.ofNat 8 (b.toNat / 10 % 10), BitVec.ofNat 8 (b.toNat % 10)]

/-- `Fx33` LD B, Vx (R93): I is not changed. -/
def execLdB (x : Nibble) (s : State) : Result :=
  inBounds s.base 3 (nextInstr (s.storeBytes s.base (decimalDigits (s.v x))))

/-- I after `Fx55` or `Fx65`: I + x + 1, not reduced to 12 bits (R94, R95, D21; DESIGN
CHOICE, log 19). -/
def State.bumpI (s : State) (x : Nibble) : State := s.setI (s.i + BitVec.ofNat 16 (x.toNat + 1))

/-- `Fx55` LD [I], Vx (R94). -/
def execStRegs (x : Nibble) (s : State) : Result :=
  inBounds s.base (x.toNat + 1) (nextInstr ((s.storeBytes s.base (s.regsUpTo x)).bumpI x))

/-- `Fx65` LD Vx, [I] (R95). -/
def execLdRegs (x : Nibble) (s : State) : Result :=
  inBounds s.base (x.toNat + 1)
    (nextInstr ((s.setRegs (fillRegs s.regs 0 (s.loadBytes s.base (x.toNat + 1)))).bumpI x))

end Sys2Proof.Machine
end

