-- ==== Sys2Proof/Machine/KeypadTimers.lean ====
section
/-! DEFINITION. The keypad and timer instructions (spec/45_keypad_timers.md). -/

namespace Sys2Proof.Machine

/-- `Ex9E` SKP Vx (R105). -/
def execSkp (x : Nibble) (s : State) : Result := withKey s (s.v x) (fun down => skipIf down s)

/-- `ExA1` SKNP Vx (R106). -/
def execSknp (x : Nibble) (s : State) : Result := withKey s (s.v x) (fun down => skipIf (!down) s)

/-- `Fx07` LD Vx, DT (R108). -/
def execLdVxDt (x : Nibble) (s : State) : Result := nextInstr (s.setV x s.dt)

/-- `Fx0A` LD Vx, K (R107): with no key pressed the cycle is done and PC stays, so that the next
cycle runs the instruction again (D18; DESIGN CHOICE, log 24). -/
def execLdVxK (x : Nibble) (s : State) : Result :=
  match s.firstKey with
  | some k => nextInstr (s.setV x (BitVec.ofNat 8 k))
  | none => .next s

/-- `Fx15` LD DT, Vx (R109). -/
def execLdDtVx (x : Nibble) (s : State) : Result := nextInstr (s.setDt (s.v x))

/-- `Fx18` LD ST, Vx (R110). -/
def execLdStVx (x : Nibble) (s : State) : Result := nextInstr (s.setSt (s.v x))

end Sys2Proof.Machine
end

