-- ==== Sys2Proof/Machine/LoadAlu.lean ====
section
/-! DEFINITION. Register loads and arithmetic (spec/42_load_alu.md): 8-bit, wrapping (R75); every one
ends with PC + 2 and none can raise. -/

namespace Sys2Proof.Machine

/-- An instruction whose one result goes to V[x]. -/
def writeV (x : Nibble) (b : Byte) (s : State) : Result := nextInstr (s.setV x b)

/-- The flag instructions R82 to R86: VF is written first, then the result statement reads V[x] and
V[y] again (D2; DESIGN CHOICE, log 11). -/
def flagThenResult (flag : Byte → Byte → Bool) (result : Byte → Byte → Byte) (x y : Nibble)
    (s : State) : Result :=
  let s₁ := s.setV vf (flagByte (flag (s.v x) (s.v y)))
  writeV x (result (s₁.v x) (s₁.v y)) s₁

/-- `6xnn` LD Vx, nn (R76). -/
def execLdImm (x : Nibble) (nn : Byte) (s : State) : Result := writeV x nn s

/-- `7xnn` ADD Vx, nn (R77): wrapping, no flag. -/
def execAddImm (x : Nibble) (nn : Byte) (s : State) : Result := writeV x (s.v x + nn) s

/-- `8xy0` LD Vx, Vy (R78). -/
def execLdReg (x y : Nibble) (s : State) : Result := writeV x (s.v y) s

/-- `8xy1` OR Vx, Vy (R79): VF is left unchanged. -/
def execOr (x y : Nibble) (s : State) : Result := writeV x (s.v x ||| s.v y) s

/-- `8xy2` AND Vx, Vy (R80): VF is left unchanged. -/
def execAnd (x y : Nibble) (s : State) : Result := writeV x (s.v x &&& s.v y) s

/-- `8xy3` XOR Vx, Vy (R81): VF is left unchanged. -/
def execXor (x y : Nibble) (s : State) : Result := writeV x (s.v x ^^^ s.v y) s

/-- `8xy4` ADD Vx, Vy (R82): VF is the carry. -/
def execAddReg (x y : Nibble) (s : State) : Result :=
  flagThenResult carries (fun a b => a + b) x y s

/-- `8xy5` SUB Vx, Vy (R83): VF is no borrow. -/
def execSub (x y : Nibble) (s : State) : Result :=
  flagThenResult noBorrow (fun a b => a - b) x y s

/-- `8xy6` SHR Vx (R84): shifts V[x] in place; y is ignored (R56). -/
def execShr (x _y : Nibble) (s : State) : Result :=
  flagThenResult (fun a _ => lowBit a) (fun a _ => a >>> 1) x x s

/-- `8xy7` SUBN Vx, Vy (R85): V[y] minus V[x]; VF is no borrow. -/
def execSubn (x y : Nibble) (s : State) : Result :=
  flagThenResult (fun a b => noBorrow b a) (fun a b => b - a) x y s

/-- `8xyE` SHL Vx (R86): shifts V[x] in place; y is ignored (R56). -/
def execShl (x _y : Nibble) (s : State) : Result :=
  flagThenResult (fun a _ => topBit a) (fun a _ => a <<< 1) x x s

/-- `Cxnn` RND Vx, nn (R87): the free byte of this cycle, masked (D9; DESIGN CHOICE, log 2). -/
def execRnd (x : Nibble) (nn : Byte) (s : State) : Result :=
  writeV x (s.randomByte &&& nn) s.countDraw

end Sys2Proof.Machine
end

