-- ==== Sys2Proof/Machine/Skip.lean ====
section
/-! DEFINITION. The conditional skips (spec/41_skip.md): all 8 bits are compared. -/

namespace Sys2Proof.Machine

/-- `3xnn` SE Vx, nn (R70). -/
def execSeImm (x : Nibble) (nn : Byte) (s : State) : Result := skipIf (s.v x == nn) s

/-- `4xnn` SNE Vx, nn (R71). -/
def execSneImm (x : Nibble) (nn : Byte) (s : State) : Result := skipIf (s.v x != nn) s

/-- `5xy0` SE Vx, Vy (R72). -/
def execSeReg (x y : Nibble) (s : State) : Result := skipIf (s.v x == s.v y) s

/-- `9xy0` SNE Vx, Vy (R73). -/
def execSneReg (x y : Nibble) (s : State) : Result := skipIf (s.v x != s.v y) s

end Sys2Proof.Machine
end

