-- ==== Sys2Proof/Machine/Fetch.lean ====
section
/-! DEFINITION. The fetch (spec/30_encoding.md R45) and placing a word where it is fetched. -/

namespace Sys2Proof.Machine

/-- The word at PC: two bytes, big-endian (R30), at any PC, odd or even (R32). It succeeds exactly
when PC ≤ 0x0FFE; else the error is `MemoryOutOfBounds` of the lowest address outside (R36, R45). -/
def fetchWord (s : State) : Except Fault Word :=
  if s.pc.toNat + 1 < memSize then
    .ok (wordOfBytes (s.readByte s.pc.toNat) (s.readByte (s.pc.toNat + 1)))
  else .error (.memoryOutOfBounds (max s.pc.toNat memSize))

/-- The state with a PC at which a fetch can succeed: PC as it is, or the entry point where PC is
outside (DEDUCED, log 15). -/
def State.withFetchablePc (s : State) : State :=
  if s.pc.toNat + 1 < memSize then s else s.setPc resetPc

/-- The state with a word stored big-endian at PC (R30). -/
def State.placeAtPc (s : State) (w : Word) : State :=
  s.storeBytes s.pc.toNat [highByte w, lowByte w]

end Sys2Proof.Machine
end

