-- ==== Sys2Proof/Machine/Step.lean ====
section
/-! DEFINITION. One step of the machine: one `Cycle` (spec/30_encoding.md R46). -/

namespace Sys2Proof.Machine

/-- `Cycle` (R46): fetch, latch the word in IR (R18), decode, run. The checks come in the order of
R124. An error outcome is a fault of the run (R126, U17; DEDUCED, log 4). -/
def step (s : State) : Host.Outcome State Fault Refusal :=
  match fetchWord s with
  | .error f => raise f
  | .ok w =>
    match decodeWord s.cfg.annn w with
    | none => raise (.unknownOpcode w)
    | some i => exec i (s.setIr w)

/-- The state with the word the opcode table numbers as `w` stored where step fetches
(DEDUCED, log 15). -/
def State.withFetchWord (s : State) (nbits w : Nat) : State :=
  s.withFetchablePc.placeAtPc (tableWord nbits w)

end Sys2Proof.Machine
end

