-- ==== Sys2Proof/Machine/Interface.lean ====
section
/-! DEFINITION. The seven transactions of the core's interface (spec/60_exceptions.md R137), each
atomic and between cycles (R138), and what the host sees of each. -/

namespace Sys2Proof.Machine

/-- `Init` (R140): every piece of state at its reset value. The parameters stay what they are, and
so does the model's own draw counter, so that no draw comes twice (DESIGN CHOICE, log 3). -/
def State.init (s : State) : State := { State.reset with cfg := s.cfg, draws := s.draws }

/-- Does `Load` accept the image? (R144) -/
def fits (image : List Byte) : Bool := image.length ≤ progMax

/-- `Load` (R144): the image at 0x200 and nothing else, or nothing at all when it is too large
(D14; DESIGN CHOICE, log 23). -/
def State.load (s : State) (image : List Byte) : State :=
  if fits image then s.storeBytes progBase image else s

/-- The state one `Cycle` leaves (R46): the next state; after an error the state before the cycle,
except that a fetch that succeeded has written IR (R121). -/
def afterCycle (s : State) : State :=
  match step s with
  | .next t => t
  | .fault _ | .refused _ =>
    match fetchWord s with
    | .ok w => s.setIr w
    | .error _ => s

/-- A timer after one tick: one less, not below 0 (R128). -/
def tickDown (n : Byte) : Byte := if n = 0 then 0 else n - 1

/-- `Tick` (R128): nothing but the two timers. -/
def State.tick (s : State) : State := (s.setDt (tickDown s.dt)).setSt (tickDown s.st)

/-- What `Tick` reports: the tone should stop (R128, R129). -/
def State.toneStop (s : State) : Bool := s.st = 1

/-- `SetKey` (R134). -/
def State.setKey (s : State) (k : Fin 16) (pressed : Bool) : State :=
  s.setKeys (s.keys.set k pressed)

/-- `ClearDirty` (R133). -/
def State.clearDirty (s : State) : State := s.setDirty false

/-- The tone signal, a function of the state (R135, D12; DESIGN CHOICE, log 22). -/
def State.tone (s : State) : Bool := s.st ≠ 0

/-- The two edges of the audio interface (R135). -/
inductive ToneEdge where
  | on
  | off
deriving DecidableEq, Repr

/-- The edge between two states, if there is one: the change of the tone signal (R135, D12). -/
def toneEdge (before after : State) : Option ToneEdge :=
  match before.tone, after.tone with
  | false, true => some .on
  | true, false => some .off
  | _, _ => none

/-- The transactions of R137. -/
inductive Transaction where
  | init
  | load (image : List Byte)
  | cycle
  | tick
  | setKey (k : Fin 16) (pressed : Bool)
  | readDisplay
  | clearDirty
deriving DecidableEq, Repr

/-- What a transaction returns to the host (R115, R137). -/
inductive Response where
  /-- nothing: `Init`, `SetKey`, `ClearDirty` -/
  | done
  /-- `Ok` of `Load` or `Cycle` -/
  | ok
  /-- `ProgramTooLarge` of `Load` (R144) -/
  | programTooLarge
  /-- the error outcome of a `Cycle` (R115) -/
  | error (f : Fault)
  /-- a `Cycle` the model has no meaning for, of which there is none -/
  | refused (r : Refusal)
  /-- the report of `Tick` (R129) -/
  | toneStop (b : Bool)
  /-- the display and the dirty flag (R132) -/
  | display (gfx : Gfx) (dirty : Bool)
deriving DecidableEq, Repr

/-- The outcome of one `Cycle` (R115). -/
def cycleResponse (s : State) : Response :=
  match step s with
  | .next _ => .ok
  | .fault f => .error f
  | .refused r => .refused r

/-- The state a transaction leaves (R137). -/
def Transaction.run (t : Transaction) (s : State) : State :=
  match t with
  | .init => s.init
  | .load image => s.load image
  | .cycle => afterCycle s
  | .tick => s.tick
  | .setKey k pressed => s.setKey k pressed
  | .readDisplay => s
  | .clearDirty => s.clearDirty

/-- What a transaction answers the host, from the state before it (R137). -/
def Transaction.response (t : Transaction) (s : State) : Response :=
  match t with
  | .init => .done
  | .load image => if fits image then .ok else .programTooLarge
  | .cycle => cycleResponse s
  | .tick => .toneStop s.toneStop
  | .setKey _ _ => .done
  | .readDisplay => .display s.gfx s.dirty
  | .clearDirty => .done

end Sys2Proof.Machine
end

