-- ==== Sys2Proof/Safety.lean ====
section
/-! DEFINITION. What holds of every state a run reaches (spec/10_state.md R26), which states a run
reaches (R138, R145), and when a run is safe. -/

namespace Sys2Proof

open Machine

/-- The invariants of R26, and the canonical form of memory. The display's cells are 0 or 1 by
their type. I is bounded where `Fx1E` keeps 12 bits (R14, U16). -/
structure StateInv (s : State) : Prop where
  mem : s.mem.wf s.cfg.font
  sp : s.sp.toNat ≤ 16
  stack : ∀ k, (h : k < 16) → k < s.sp.toNat → s.stack[k].toNat ≤ 0x0FFE
  pc : s.pc.toNat ≤ 0x10FE
  index : s.cfg.fx1eWrap = .mod4096 → s.i.toNat ≤ 0x1000

/-- Every interleaving of transactions after a first `Init`, under any setting of the parameters
(R4, R138, R145, D16). -/
inductive Reachable : State → Prop where
  | init (cfg : Config) : Reachable { State.reset with cfg := cfg }
  | run (t : Transaction) (s : State) : Reachable s → Reachable (t.run s)

/-- The next cycle of the state ends with `Ok`: a run is safe while this holds (R126, R159). -/
def CycleOk (s : State) : Prop := ∃ t, step s = .next t

/-- The word at PC is a jump to PC itself: the end of a program (R156, D25). -/
def Idle (s : State) : Prop :=
  s.pc.toNat ≤ 0x0FFE ∧
    (s.readByte s.pc.toNat).toNat * 256 + (s.readByte (s.pc.toNat + 1)).toNat
      = 0x1000 + s.pc.toNat

/-- Two states that agree in everything but the stack entries at SP and above, which no return
address is held in (R15, R16). -/
def AgreeBelowSp (s s' : State) : Prop :=
  s' = { s with stack := s'.stack } ∧
    ∀ k, (h : k < 16) → k < s.sp.toNat → s'.stack[k] = s.stack[k]

/-! ### What an instruction does, in the terms of the statements -/

/-- The word with this value decodes to the instruction, whatever `ANNN_POLICY` is. -/
def HasWord (i : Instr) (n : Nat) : Prop :=
  ∀ (p : AnnnPolicy) (w : Word), w.toNat = n → decodeWord p w = some i

/-- Every byte of memory reads as before. -/
def KeepsMemory (s t : State) : Prop := ∀ a, t.readByte a = s.readByte a

/-- The instruction completes in every state, writes V[x] and PC + 2, and leaves every other
register, every other field of the state and every byte of memory as it was. -/
def WritesV (i : Instr) (x : Nibble) (b : State → Byte) : Prop :=
  ∀ s, ∃ t, exec i s = .next t ∧ t.v x = b s ∧ (∀ r, r ≠ x → t.v r = s.v r) ∧
    t.pc = s.pc + 2 ∧ t = { s with regs := t.regs, pc := t.pc } ∧ KeepsMemory s t

/-- The instruction completes in every state and writes PC alone. -/
def MovesPc (i : Instr) (a : State → Word) : Prop :=
  ∀ s, ∃ t, exec i s = .next t ∧ t.pc = a s ∧ t = { s with pc := t.pc } ∧ KeepsMemory s t

/-- The instruction completes in every state and writes I and PC + 2 alone. -/
def WritesI (i : Instr) (n : State → Nat) : Prop :=
  ∀ s, ∃ t, exec i s = .next t ∧ t.i.toNat = n s ∧ t.pc = s.pc + 2 ∧
    t = { s with i := t.i, pc := t.pc } ∧ KeepsMemory s t

/-- The flag instructions R82, R83, R85, with a and b the values of V[x] and V[y] before, `f a b` the
flag and `g a b` the result: the four rows of each rule's corner cases (D2), and the frame. -/
def FlagThenResult (i : Instr) (x y : Nibble) (f g : Nat → Nat → Nat) : Prop :=
  ∀ s, ∃ t, exec i s = .next t ∧
    (x ≠ vf → y ≠ vf → (t.v x).toNat = g (s.v x).toNat (s.v y).toNat ∧
      (t.v vf).toNat = f (s.v x).toNat (s.v y).toNat) ∧
    (x ≠ vf → y = vf → (t.v x).toNat = g (s.v x).toNat (f (s.v x).toNat (s.v y).toNat) ∧
      (t.v vf).toNat = f (s.v x).toNat (s.v y).toNat) ∧
    (x = vf → y ≠ vf → (t.v vf).toNat = g (f (s.v x).toNat (s.v y).toNat) (s.v y).toNat) ∧
    (x = vf → y = vf → (t.v vf).toNat
      = g (f (s.v x).toNat (s.v y).toNat) (f (s.v x).toNat (s.v y).toNat)) ∧
    (∀ r, r ≠ x → r ≠ vf → t.v r = s.v r) ∧
    t.pc = s.pc + 2 ∧ t = { s with regs := t.regs, pc := t.pc } ∧ KeepsMemory s t

/-- The shifts R84 and R86, with a the value of V[x] before, `f a` the flag and `g a` the result. -/
def ShiftsInPlace (i : Instr) (x : Nibble) (f g : Nat → Nat) : Prop :=
  ∀ s, ∃ t, exec i s = .next t ∧
    (x ≠ vf → (t.v x).toNat = g (s.v x).toNat ∧ (t.v vf).toNat = f (s.v x).toNat) ∧
    (x = vf → (t.v vf).toNat = g (f (s.v x).toNat)) ∧
    (∀ r, r ≠ x → r ≠ vf → t.v r = s.v r) ∧
    t.pc = s.pc + 2 ∧ t = { s with regs := t.regs, pc := t.pc } ∧ KeepsMemory s t

/-- A sprite of n rows at I, drawn at column V[x] and row V[y], has a bit 1 for this cell
(R102, R103). -/
def SpriteBit (s : State) (x y n : Nibble) (row : Fin 32) (col : Fin 64) : Prop :=
  ∃ r < n.toNat, ∃ c < 8, row.val = ((s.v y).toNat + r) % 32 ∧
    col.val = ((s.v x).toNat + c) % 64 ∧ (s.readByte (s.base + r)).getLsbD (7 - c) = true

/-- The transactions after which an error comes again: none writes memory, PC or a register a check
looks at (R126). -/
def LeavesError (m : Transaction) : Prop :=
  m = .cycle ∨ m = .tick ∨ m = .readDisplay ∨ m = .clearDirty ∨ ∃ k b, m = .setKey k b

end Sys2Proof
end

