-- ==== Sys2Proof/Certificates/Slice0/Obligations.lean ====
section
/-! DEFINITION. The statements about the model, from the numbered rules of spec/. A statement that
rests on a choice the spec marks as its own (a decision D<n>) or on one of the model's names it. -/

open Sys2Proof Sys2Proof.Machine

/-! ### Words and instructions (spec/30_encoding.md) -/

/-- Words written out from the patterns of R52, one or more per family, decode to what they stand
for. -/
def Obligations.WrittenWordsDecode : Prop :=
  decode .loadIndex [0x00, 0xE0] = .ok (.cls, []) ∧
  decode .loadIndex [0x00, 0xEE] = .ok (.ret, []) ∧
  decode .loadIndex [0x2A, 0xBC] = .ok (.call 0xABC, []) ∧
  decode .loadIndex [0x3A, 0x2B] = .ok (.seImm 0xA 0x2B, []) ∧
  decode .loadIndex [0x8A, 0xB7] = .ok (.subn 0xA 0xB, []) ∧
  decode .loadIndex [0x83, 0x0E] = .ok (.shl 0x3 0x0, []) ∧
  decode .loadIndex [0xA2, 0xF0] = .ok (.ldI 0x2F0, []) ∧
  decode .loadIndex [0xD1, 0x2F] = .ok (.drw 0x1 0x2 0xF, []) ∧
  decode .loadIndex [0xE2, 0xA1] = .ok (.sknp 0x2, []) ∧
  decode .loadIndex [0xF5, 0x0A] = .ok (.ldVxK 0x5, []) ∧
  decode .loadIndex [0xFF, 0x65] = .ok (.ldRegs 0xF, [])

/-- R48: the fields of the word of two bytes, in terms of the bytes, and how they overlap. -/
def Obligations.FieldsOfTheTwoBytes : Prop :=
  ∀ hi lo : Byte,
    (fieldOp (wordOfBytes hi lo)).toNat = hi.toNat / 16 ∧
    (fieldX (wordOfBytes hi lo)).toNat = hi.toNat % 16 ∧
    (fieldY (wordOfBytes hi lo)).toNat = lo.toNat / 16 ∧
    (fieldN (wordOfBytes hi lo)).toNat = lo.toNat % 16 ∧
    (fieldNn (wordOfBytes hi lo)).toNat
      = (fieldY (wordOfBytes hi lo)).toNat * 16 + (fieldN (wordOfBytes hi lo)).toNat ∧
    fieldNn (wordOfBytes hi lo) = lo ∧
    (fieldNnn (wordOfBytes hi lo)).toNat
      = (fieldX (wordOfBytes hi lo)).toNat * 256 + (fieldNn (wordOfBytes hi lo)).toNat

/-- Decoding the bytes of any instruction of the machine, whatever bytes follow, gives it back. That
`Annn` is one under `load_index` is decision D3 (log 6). -/
def Obligations.EncodeThenDecode : Prop :=
  ∀ (p : AnnnPolicy) (i : Instr) (rest : List Byte), i.wellFormed p = true →
    decode p (encodeBytes i ++ rest) = .ok (i, rest)

/-- Every word has at most one meaning: a word that decodes is the word of what it decodes to. That
the literal digits are matched exactly, without which 0x5xy1 would decode and not encode back, is
decision D5 (log 27); which words the policy lets in is decision D3 (log 6). -/
def Obligations.DecodeThenEncode : Prop :=
  ∀ (p : AnnnPolicy) (w : Word) (i : Instr), decodeWord p w = some i →
    encode i = w ∧ i.wellFormed p = true

/-- R51, R52: a word decodes to the instruction of a row exactly when it agrees with the row's mask
and match, and no word agrees with two rows. The exactness of the digits is decision D5 and the row
LD_I decision D3 of the spec (logs 6, 27). -/
def Obligations.RowSelectsItsInstruction : Prop :=
  ∀ (w : Word), ∀ r ∈ opcodeMap,
    (r.selects w = true ↔ ∃ i, decodeWord .loadIndex w = some i ∧ i.mnemonic = r.mnemonic) ∧
    ∀ r' ∈ opcodeMap, r.selects w = true → r'.selects w = true → r = r'

/-- R53: the unrecognized words are those no row of the opcode map matches (D3, D5; logs 6, 27). -/
def Obligations.UnmatchedWordIsUnrecognized : Prop :=
  ∀ w : Word, decodeWord .loadIndex w = none ↔ ∀ r ∈ opcodeMap, r.selects w = false

/-- R60, decision D3 (log 6): `ANNN_POLICY` decides the words with op field 0xA and no others. -/
def Obligations.AnnnPolicyDecidesOpA : Prop :=
  ∀ w : Word, (fieldOp w = 0xA → decodeWord .loadIndex w = some (.ldI (fieldNnn w)) ∧
      decodeWord .unknownOpcode w = none) ∧
    (fieldOp w ≠ 0xA → decodeWord .unknownOpcode w = decodeWord .loadIndex w)

/-! ### The cycle -/

/-- When the bytes at PC decode to an instruction, the step is that instruction's meaning, run with
the fetched word latched in IR (R18, R30, R45, R46; that IR is written is decision D24, log 18). -/
def Obligations.StepRunsDecodedInstruction : Prop :=
  ∀ (s : State) (i : Instr), s.pc.toNat ≤ 0x0FFE →
    decode s.cfg.annn [s.readByte s.pc.toNat, s.readByte (s.pc.toNat + 1)] = .ok (i, []) →
    ∃ w : Word, w.toNat = (s.readByte s.pc.toNat).toNat * 256
        + (s.readByte (s.pc.toNat + 1)).toNat ∧
      step s = exec i (s.setIr w)

/-- R45, decision D1 (log 12): a fetch that would touch an address outside the memory faults with
the lowest such address, and the cycle changes nothing, not even IR (D24). -/
def Obligations.FetchOutsideMemoryFaults : Prop :=
  ∀ s : State, 0x0FFF ≤ s.pc.toNat →
    step s = .fault (.memoryOutOfBounds (if s.pc.toNat = 0x0FFF then 0x1000 else s.pc.toNat)) ∧
    afterCycle s = s

/-- R54: an unrecognized word writes IR, ends the cycle with `UnknownOpcode` of the word, changes
nothing else, and does so again in the next cycle. -/
def Obligations.UnrecognizedWordReported : Prop :=
  ∀ (s : State) (w : Word), s.pc.toNat ≤ 0x0FFE →
    w.toNat = (s.readByte s.pc.toNat).toNat * 256 + (s.readByte (s.pc.toNat + 1)).toNat →
    decodeWord s.cfg.annn w = none →
    step s = .fault (.unknownOpcode w) ∧ afterCycle s = { s with ir := w } ∧
      step (afterCycle s) = .fault (.unknownOpcode w)

/-- R121 (decision D10) and R126 (log 4): an error leaves the state as it was but for IR, which holds
the fetched word when the fetch succeeded; and it comes again in the next cycle, whatever tick, key
change, display access or further cycle comes first. -/
def Obligations.ErrorsArePreciseAndRepeat : Prop :=
  ∀ (s : State) (f : Fault), step s = .fault f →
    afterCycle s = { s with ir := (afterCycle s).ir } ∧
    (∀ w, fetchWord s = .ok w → (afterCycle s).ir = w) ∧
    ∀ m, LeavesError m → step (m.run (afterCycle s)) = .fault f

/-- R156, decision D25: a jump to itself is a fixed point of the cycle, but for IR the first time. -/
def Obligations.IdleIsFixedPoint : Prop :=
  ∀ s : State, Idle s →
    (∃ w : Word, w.toNat = 0x1000 + s.pc.toNat ∧ step s = .next { s with ir := w }) ∧
    (s.ir.toNat = 0x1000 + s.pc.toNat → step s = .next s)

/-! ### Control flow (spec/40_control_flow.md) -/

/-- R65: RET takes the last entry off the stack and goes on two bytes after it; with an empty stack
it raises `StackUnderflow`. -/
def Obligations.RetPopsAndGoesOn : Prop :=
  HasWord .ret 0x00EE ∧
  ∀ s : State,
    (∀ k, (h : k < 16) → s.sp.toNat = k + 1 → ∃ t, exec .ret s = .next t ∧
      t.sp.toNat = k ∧ t.pc = s.stack[k] + 2 ∧ t = { s with sp := t.sp, pc := t.pc } ∧
      KeepsMemory s t) ∧
    (s.sp = 0 → exec .ret s = .fault .stackUnderflow)

/-- The model's choice (log 5): with SP above 16, which no run reaches (R15, U16), RET completes as
it always does, and the entry it reads, which does not exist, is a free value. -/
def Obligations.RetAboveTheStack : Prop :=
  ∀ s : State, 16 < s.sp.toNat → ∃ t, exec .ret s = .next t ∧ t.sp.toNat = s.sp.toNat - 1 ∧
    t.pc = Config.beyondStack t.sp + 2 ∧ t = { s with sp := t.sp, pc := t.pc } ∧ KeepsMemory s t

/-- R66: JP loads nnn into PC. -/
def Obligations.JpLoadsPc : Prop :=
  ∀ nnn : Addr12, HasWord (.jp nnn) (0x1000 + nnn.toNat) ∧
    MovesPc (.jp nnn) (fun _ => BitVec.ofNat 16 nnn.toNat)

/-- R67: CALL pushes its own address and jumps; with sixteen entries it raises `StackOverflow`. -/
def Obligations.CallPushesItsOwnAddress : Prop :=
  ∀ (nnn : Addr12) (s : State), HasWord (.call nnn) (0x2000 + nnn.toNat) ∧
    (∀ h : s.sp.toNat < 16, ∃ t, exec (.call nnn) s = .next t ∧
      t.stack[s.sp.toNat] = s.pc ∧
      (∀ k, (hk : k < 16) → k ≠ s.sp.toNat → t.stack[k] = s.stack[k]) ∧
      t.sp.toNat = s.sp.toNat + 1 ∧ t.pc.toNat = nnn.toNat ∧
      t = { s with stack := t.stack, sp := t.sp, pc := t.pc } ∧ KeepsMemory s t) ∧
    (16 ≤ s.sp.toNat → exec (.call nnn) s = .fault .stackOverflow)

/-- R68: JP V0 loads V[0] + nnn into PC, not reduced to 12 bits. -/
def Obligations.JpV0AddsV0 : Prop :=
  ∀ (nnn : Addr12), HasWord (.jpV0 nnn) (0xB000 + nnn.toNat) ∧
    MovesPc (.jpV0 nnn) (fun s => BitVec.ofNat 16 ((s.v 0).toNat + nnn.toNat)) ∧
    ∀ s : State, (BitVec.ofNat 16 ((s.v 0).toNat + nnn.toNat)).toNat = (s.v 0).toNat + nnn.toNat

/-- A call and the return from it, whatever the subroutine did to the rest of the state, go on at
the instruction after the call (R65, R67, E5). -/
def Obligations.ReturnGoesBehindTheCall : Prop :=
  ∀ (nnn : Addr12) (s t u : State), exec (.call nnn) s = .next t →
    u.stack = t.stack → u.sp = t.sp →
    exec .ret u = .next { u with sp := s.sp, pc := s.pc + 2 }

/-! ### Skips (spec/41_skip.md) -/

/-- R70, R71: SE and SNE with a constant. -/
def Obligations.SkipsOnConstant : Prop :=
  ∀ (x : Nibble) (nn : Byte), HasWord (.seImm x nn) (0x3000 + x.toNat * 256 + nn.toNat) ∧
    HasWord (.sneImm x nn) (0x4000 + x.toNat * 256 + nn.toNat) ∧
    MovesPc (.seImm x nn) (fun s => if s.v x = nn then s.pc + 4 else s.pc + 2) ∧
    MovesPc (.sneImm x nn) (fun s => if s.v x ≠ nn then s.pc + 4 else s.pc + 2)

/-- R72, R73: SE and SNE with a register. -/
def Obligations.SkipsOnRegister : Prop :=
  ∀ x y : Nibble, HasWord (.seReg x y) (0x5000 + x.toNat * 256 + y.toNat * 16) ∧
    HasWord (.sneReg x y) (0x9000 + x.toNat * 256 + y.toNat * 16) ∧
    MovesPc (.seReg x y) (fun s => if s.v x = s.v y then s.pc + 4 else s.pc + 2) ∧
    MovesPc (.sneReg x y) (fun s => if s.v x ≠ s.v y then s.pc + 4 else s.pc + 2)

/-! ### Loads and arithmetic (spec/42_load_alu.md) -/

/-- R76: LD Vx, nn. -/
def Obligations.LdImmLoadsConstant : Prop :=
  ∀ (x : Nibble) (nn : Byte), HasWord (.ldImm x nn) (0x6000 + x.toNat * 256 + nn.toNat) ∧
    WritesV (.ldImm x nn) x (fun _ => nn)

/-- R77: ADD Vx, nn wraps and writes no flag. -/
def Obligations.AddImmWrapsWithoutFlag : Prop :=
  ∀ (x : Nibble) (nn : Byte), HasWord (.addImm x nn) (0x7000 + x.toNat * 256 + nn.toNat) ∧
    WritesV (.addImm x nn) x (fun s => BitVec.ofNat 8 (((s.v x).toNat + nn.toNat) % 256))

/-- R78: LD Vx, Vy. -/
def Obligations.LdRegCopies : Prop :=
  ∀ x y : Nibble, HasWord (.ldReg x y) (0x8000 + x.toNat * 256 + y.toNat * 16) ∧
    WritesV (.ldReg x y) x (fun s => s.v y)

/-- R79, R80, R81: the bitwise operations, bit by bit, leaving VF unchanged unless it is Vx. -/
def Obligations.BitwiseOperations : Prop :=
  ∀ x y : Nibble, HasWord (.or x y) (0x8000 + x.toNat * 256 + y.toNat * 16 + 1) ∧
    HasWord (.and x y) (0x8000 + x.toNat * 256 + y.toNat * 16 + 2) ∧
    HasWord (.xor x y) (0x8000 + x.toNat * 256 + y.toNat * 16 + 3) ∧
    WritesV (.or x y) x (fun s => s.v x ||| s.v y) ∧
    WritesV (.and x y) x (fun s => s.v x &&& s.v y) ∧
    WritesV (.xor x y) x (fun s => s.v x ^^^ s.v y)

/-- ADD Vx, Vy with its carry. That the flag is written first and the operands read again, which
shows when x or y is F, is decision D2 of the spec (log 11). -/
def Obligations.AddRegCarries : Prop :=
  ∀ x y : Nibble, FlagThenResult (.addReg x y) x y
    (fun a b => if a + b > 255 then 1 else 0) (fun a b => (a + b) % 256)

/-- SUB Vx, Vy with no-borrow in VF; flag first, decision D2 (log 11). -/
def Obligations.SubReportsNoBorrow : Prop :=
  ∀ x y : Nibble, FlagThenResult (.sub x y) x y
    (fun a b => if a ≥ b then 1 else 0) (fun a b => if a ≥ b then a - b else a + 256 - b)

/-- SUBN Vx, Vy with no-borrow in VF; flag first, decision D2 (log 11). -/
def Obligations.SubnReportsNoBorrow : Prop :=
  ∀ x y : Nibble, FlagThenResult (.subn x y) x y
    (fun a b => if b ≥ a then 1 else 0) (fun a b => if b ≥ a then b - a else b + 256 - a)

/-- SHR Vx: bit 0 to VF, whatever y is; flag first, decision D2 (log 11). -/
def Obligations.ShrShiftsInPlace : Prop :=
  ∀ x y : Nibble, ShiftsInPlace (.shr x y) x (fun a => a % 2) (fun a => a / 2)

/-- SHL Vx: bit 7 to VF, whatever y is; flag first, decision D2 (log 11). -/
def Obligations.ShlShiftsInPlace : Prop :=
  ∀ x y : Nibble, ShiftsInPlace (.shl x y) x (fun a => a / 128) (fun a => a * 2 % 256)

/-- RND Vx, nn: the random byte of this cycle, masked. The byte is a free value (decision D9,
log 2): nothing is known of it, and the next draw is another one. -/
def Obligations.RndMasksTheFreeByte : Prop :=
  ∀ (x : Nibble) (nn : Byte) (s : State), ∃ t, exec (.rnd x nn) s = .next t ∧
    t.v x = Config.randomByte s.draws &&& nn ∧ t.draws = s.draws + 1 ∧
    (∀ k, k < 8 → nn.getLsbD k = false → (t.v x).getLsbD k = false) ∧
    (∀ r, r ≠ x → t.v r = s.v r) ∧ t.pc = s.pc + 2 ∧
    t = { s with regs := t.regs, pc := t.pc, draws := t.draws } ∧ KeepsMemory s t

/-! ### The index register and memory (spec/43_index_memory.md) -/

/-- LD I, nnn. That the word is an instruction is decision D3 (log 6). That the meaning is the same
in a state with `ANNN_POLICY` = `unknown_opcode`, where the decoder refuses the word and no step
comes to it, is the model's choice (log 21). -/
def Obligations.LdILoadsAddress : Prop :=
  ∀ nnn : Addr12, WritesI (.ldI nnn) (fun _ => nnn.toNat)

/-- ADD I, Vx under every setting of its two parameters, which are decision D4 (log 9); VF is the
register that may also be written, and V[x] is read before it. -/
def Obligations.AddIUnderBothParameters : Prop :=
  ∀ (x : Nibble) (s : State), ∃ t, exec (.addI x) s = .next t ∧
    (s.cfg.fx1eWrap = .mod4096 → t.i.toNat = (s.i.toNat + (s.v x).toNat) % 4096) ∧
    (s.cfg.fx1eWrap = .mod65536 → t.i.toNat = (s.i.toNat + (s.v x).toNat) % 65536) ∧
    (s.cfg.fx1eVf = .writesOverflow →
      t.v vf = if s.i.toNat + (s.v x).toNat > 0x0FFF then 1 else 0) ∧
    (s.cfg.fx1eVf = .unchanged → t.v vf = s.v vf) ∧
    (∀ r, r ≠ vf → t.v r = s.v r) ∧ t.pc = s.pc + 2 ∧
    t = { s with regs := t.regs, i := t.i, pc := t.pc } ∧ KeepsMemory s t

/-- R92: LD F, Vx multiplies all 8 bits of V[x] by 5. -/
def Obligations.LdFPointsAtGlyph : Prop :=
  ∀ x : Nibble, HasWord (.ldF x) (0xF000 + x.toNat * 256 + 0x29) ∧
    WritesI (.ldF x) (fun s => (s.v x).toNat * 5)

/-- LD B, Vx inside the memory: the three digits at I, and every other byte as before. Where it does
not fit it faults: decision D1, stated in DataAccessOutsideFaults. -/
def Obligations.LdBStoresDigits : Prop :=
  ∀ (x : Nibble) (s : State), s.mem.wf s.cfg.font → s.base + 2 < 4096 →
    ∃ t, exec (.ldB x) s = .next t ∧
      (t.readByte s.base).toNat = (s.v x).toNat / 100 ∧
      (t.readByte (s.base + 1)).toNat = (s.v x).toNat / 10 % 10 ∧
      (t.readByte (s.base + 2)).toNat = (s.v x).toNat % 10 ∧
      (∀ a, a < s.base ∨ s.base + 2 < a → t.readByte a = s.readByte a) ∧
      t.pc = s.pc + 2 ∧ t = { s with mem := t.mem, pc := t.pc }

/-- LD [I], Vx inside the memory: V[0] to V[x] at I, I moved by x + 1 (decision D21: not reduced to
12 bits), and every other byte as before. -/
def Obligations.StRegsStoresAndMovesI : Prop :=
  ∀ (x : Nibble) (s : State), s.mem.wf s.cfg.font → s.base + x.toNat < 4096 →
    ∃ t, exec (.stRegs x) s = .next t ∧
      (∀ k : Nibble, k.toNat ≤ x.toNat → t.readByte (s.base + k.toNat) = s.v k) ∧
      (∀ a, a < s.base ∨ s.base + x.toNat < a → t.readByte a = s.readByte a) ∧
      t.i.toNat = s.i.toNat + x.toNat + 1 ∧ t.pc = s.pc + 2 ∧
      t = { s with mem := t.mem, i := t.i, pc := t.pc }

/-- LD Vx, [I] inside the memory: V[0] to V[x] from I, the registers above x as before, I moved by
x + 1 (decision D21). -/
def Obligations.LdRegsLoadsAndMovesI : Prop :=
  ∀ (x : Nibble) (s : State), s.base + x.toNat < 4096 →
    ∃ t, exec (.ldRegs x) s = .next t ∧
      (∀ k : Nibble, k.toNat ≤ x.toNat → t.v k = s.readByte (s.base + k.toNat)) ∧
      (∀ k : Nibble, x.toNat < k.toNat → t.v k = s.v k) ∧
      t.i.toNat = s.i.toNat + x.toNat + 1 ∧ t.pc = s.pc + 2 ∧
      t = { s with regs := t.regs, i := t.i, pc := t.pc } ∧ KeepsMemory s t

/-- Decision D1 of the spec (log 12): a data access that would touch an address outside the memory
faults with the lowest such address. -/
def Obligations.DataAccessOutsideFaults : Prop :=
  ∀ (x y n : Nibble) (s : State),
    (4096 ≤ s.base + 2 → exec (.ldB x) s = .fault (.memoryOutOfBounds (max s.base 4096))) ∧
    (4096 ≤ s.base + x.toNat →
      exec (.stRegs x) s = .fault (.memoryOutOfBounds (max s.base 4096)) ∧
      exec (.ldRegs x) s = .fault (.memoryOutOfBounds (max s.base 4096))) ∧
    (n ≠ 0 → 4096 ≤ s.base + (n.toNat - 1) →
      exec (.drw x y n) s = .fault (.memoryOutOfBounds (max s.base 4096)))

/-- What a store leaves is what the next fetch of those addresses reads (R41, an inference the spec
marks as its own). -/
def Obligations.StoredBytesAreFetched : Prop :=
  ∀ (x k : Nibble) (s t : State), s.mem.wf s.cfg.font → exec (.stRegs x) s = .next t →
    k.toNat + 1 ≤ x.toNat →
    fetchWord (t.setPc (s.i + BitVec.ofNat 16 k.toNat)) = .ok (wordOfBytes (s.v k) (s.v (k + 1)))

/-- Storing V[0] to V[x] and loading them back with I set back restores every register (E7). -/
def Obligations.StoreThenLoadRestores : Prop :=
  ∀ (x : Nibble) (s : State), s.mem.wf s.cfg.font → s.base + x.toNat < 4096 →
    ∃ t u, exec (.stRegs x) s = .next t ∧ exec (.ldRegs x) (t.setI s.i) = .next u ∧
      u.regs = s.regs ∧ t.i.toNat = s.i.toNat + x.toNat + 1 ∧
      u.i.toNat = s.i.toNat + x.toNat + 1 ∧ KeepsMemory t u

/-! ### The display (spec/44_display.md) -/

/-- R100: CLS turns every cell off and sets the dirty flag. -/
def Obligations.ClsClearsTheDisplay : Prop :=
  HasWord .cls 0x00E0 ∧
  ∀ s : State, ∃ t, exec .cls s = .next t ∧ (∀ row col, Gfx.cell t.gfx row col = false) ∧
    t.dirty = true ∧ t.pc = s.pc + 2 ∧
    t = { s with gfx := t.gfx, dirty := t.dirty, pc := t.pc } ∧ KeepsMemory s t

/-- DRW where its sprite bytes are in the memory: the cells with a sprite bit 1 change, all others
stay, VF says whether one of them was on, dirty is set. The bit order is decision D7, the order of
reading and checking D23 (log 8, log 12). -/
def Obligations.DrwDrawsByExclusiveOr : Prop :=
  ∀ (x y n : Nibble) (s : State), n = 0 ∨ s.base + n.toNat ≤ 4096 →
    ∃ t, exec (.drw x y n) s = .next t ∧
      (∀ row col, SpriteBit s x y n row col →
        Gfx.cell t.gfx row col = !Gfx.cell s.gfx row col) ∧
      (∀ row col, ¬ SpriteBit s x y n row col →
        Gfx.cell t.gfx row col = Gfx.cell s.gfx row col) ∧
      ((∃ row col, SpriteBit s x y n row col ∧ Gfx.cell s.gfx row col = true) → t.v vf = 1) ∧
      ((∀ row col, SpriteBit s x y n row col → Gfx.cell s.gfx row col = false) → t.v vf = 0) ∧
      (∀ r, r ≠ vf → t.v r = s.v r) ∧ t.dirty = true ∧ t.pc = s.pc + 2 ∧
      t = { s with regs := t.regs, gfx := t.gfx, dirty := t.dirty, pc := t.pc } ∧
      KeepsMemory s t

/-- Drawing the same sprite twice at the same place restores the display, and the second VF is 1
exactly when the sprite has a bit the first draw turned on (E6; D7, log 8). With x or y = F the
first draw's flag moves the second draw, so those forms draw elsewhere. -/
def Obligations.DrawTwiceRestores : Prop :=
  ∀ (x y n : Nibble) (s : State), x ≠ vf → y ≠ vf → n = 0 ∨ s.base + n.toNat ≤ 4096 →
    ∃ t u, exec (.drw x y n) s = .next t ∧ exec (.drw x y n) t = .next u ∧ u.gfx = s.gfx ∧
      (u.v vf = 1 ↔ ∃ row col, Gfx.cell s.gfx row col = false ∧ Gfx.cell t.gfx row col = true)

/-! ### Keys and timers (spec/45_keypad_timers.md) -/

/-- SKP and SKNP with a key number up to 15, under either policy. -/
def Obligations.KeySkipsOnKey : Prop :=
  ∀ (x : Nibble) (s : State) (h : (s.v x).toNat < 16),
    (∃ t, exec (.skp x) s = .next t ∧
      t.pc = (if s.keys[(s.v x).toNat] = true then s.pc + 4 else s.pc + 2) ∧
      t = { s with pc := t.pc } ∧ KeepsMemory s t) ∧
    (∃ t, exec (.sknp x) s = .next t ∧
      t.pc = (if s.keys[(s.v x).toNat] = true then s.pc + 2 else s.pc + 4) ∧
      t = { s with pc := t.pc } ∧ KeepsMemory s t)

/-- Decision D6 of the spec (log 10): a key number above 15 faults under `KEY_INDEX_POLICY` = `fault`
and is reduced to four bits under `mask4`. -/
def Obligations.KeyNumberAbove15 : Prop :=
  ∀ (x : Nibble) (s : State), 16 ≤ (s.v x).toNat →
    (s.cfg.keyIndex = .fault →
      exec (.skp x) s = .fault (.invalidKeyIndex (s.v x)) ∧
      exec (.sknp x) s = .fault (.invalidKeyIndex (s.v x))) ∧
    (s.cfg.keyIndex = .mask4 → ∀ k : Fin 16, (s.v x).toNat % 16 = k.val →
      exec (.skp x) s = .next { s with pc := if s.keys[k] = true then s.pc + 4 else s.pc + 2 } ∧
      exec (.sknp x) s = .next { s with pc := if s.keys[k] = true then s.pc + 2 else s.pc + 4 })

/-- LD Vx, K takes the lowest key pressed; with none it completes and changes nothing, so that the
next cycle runs it again (decisions D18, D26; log 24). -/
def Obligations.KeyWaitTakesLowestKey : Prop :=
  ∀ (x : Nibble) (s : State),
    (∀ k : Fin 16, s.keys[k] = true → (∀ j : Fin 16, j < k → s.keys[j] = false) →
      ∃ t, exec (.ldVxK x) s = .next t ∧ (t.v x).toNat = k.val ∧
        (∀ r, r ≠ x → t.v r = s.v r) ∧ t.pc = s.pc + 2 ∧
        t = { s with regs := t.regs, pc := t.pc } ∧ KeepsMemory s t) ∧
    ((∀ k : Fin 16, s.keys[k] = false) → exec (.ldVxK x) s = .next s)

/-- R108, R109: reading and setting the delay timer. -/
def Obligations.DelayTimerMoves : Prop :=
  ∀ x : Nibble, HasWord (.ldVxDt x) (0xF000 + x.toNat * 256 + 0x07) ∧
    HasWord (.ldDtVx x) (0xF000 + x.toNat * 256 + 0x15) ∧
    WritesV (.ldVxDt x) x (fun s => s.dt) ∧
    ∀ s : State, ∃ t, exec (.ldDtVx x) s = .next t ∧ t.dt = s.v x ∧ t.pc = s.pc + 2 ∧
      t = { s with dt := t.dt, pc := t.pc } ∧ KeepsMemory s t

/-- Setting the sound timer, and the tone edge it makes, which is decision D12 (log 22). -/
def Obligations.SoundTimerMovesTheTone : Prop :=
  ∀ (x : Nibble) (s : State), ∃ t, exec (.ldStVx x) s = .next t ∧ t.st = s.v x ∧
    t.pc = s.pc + 2 ∧ t = { s with st := t.st, pc := t.pc } ∧ KeepsMemory s t ∧
    (toneEdge s t = some .on ↔ s.st = 0 ∧ s.v x ≠ 0) ∧
    (toneEdge s t = some .off ↔ s.st ≠ 0 ∧ s.v x = 0)

/-! ### The host's transactions (spec/60_exceptions.md, spec/70_reset_and_hazards.md) -/

/-- `Init` writes every piece of state of the spec, whatever it was before (R140). That the parameters
stay, and that the model's own draw counter stays, so that the state after depends on these two
alone, is the model's choice (logs 1, 3). -/
def Obligations.InitWritesEverything : Prop :=
  ∀ s t : State, t = Transaction.init.run s →
    t.pc = 0x200 ∧ t.i = 0 ∧ t.ir = 0 ∧ t.sp = 0 ∧ (∀ x, t.v x = 0) ∧
    (∀ k, (h : k < 16) → t.stack[k] = 0) ∧ (∀ k : Fin 16, t.keys[k] = false) ∧
    (∀ row col, Gfx.cell t.gfx row col = false) ∧
    (∀ a, (h : a < 80) → t.readByte a = s.cfg.font[a]) ∧ (∀ a, 80 ≤ a → t.readByte a = 0) ∧
    t.dt = 0 ∧ t.st = 0 ∧ t.dirty = true ∧ t.cfg = s.cfg ∧ t.draws = s.draws ∧
    ∀ s' : State, s'.cfg = s.cfg → s'.draws = s.draws → Transaction.init.run s' = t

/-- `Load` puts the image at 0x200 and touches nothing else, or refuses an image of more than 3584
bytes and touches nothing (decision D14; log 23). -/
def Obligations.LoadPlacesTheImage : Prop :=
  ∀ (s : State) (image : List Byte), s.mem.wf s.cfg.font →
    (image.length ≤ 3584 → ∃ t, (Transaction.load image).run s = t ∧
      (Transaction.load image).response s = .ok ∧
      (∀ j, (h : j < image.length) → t.readByte (0x200 + j) = image[j]) ∧
      (∀ a, a < 0x200 ∨ 0x200 + image.length ≤ a → t.readByte a = s.readByte a) ∧
      t = { s with mem := t.mem }) ∧
    (3584 < image.length → (Transaction.load image).run s = s ∧
      (Transaction.load image).response s = .programTooLarge)

/-- R128, R129: `Tick` counts both timers down to 0 and reports the step of ST from 1 to 0; an
instruction changes a timer only by setting it. -/
def Obligations.TickCountsDown : Prop :=
  ∀ s t : State, Transaction.tick.run s = t →
    t.dt.toNat = s.dt.toNat - 1 ∧ t.st.toNat = s.st.toNat - 1 ∧
    t = { s with dt := t.dt, st := t.st } ∧
    (∃ b, Transaction.tick.response s = .toneStop b ∧
      (b = true ↔ s.st.toNat = 1 ∧ t.st.toNat = 0)) ∧
    ∀ i u, exec i s = .next u → (u.dt = s.dt ∨ ∃ x, i = .ldDtVx x ∧ u.dt = s.v x) ∧
      (u.st = s.st ∨ ∃ x, i = .ldStVx x ∧ u.st = s.v x)

/-- `SetKey` writes one key, `ClearDirty` the dirty flag, `ReadDisplay` nothing (R132 to R134). -/
def Obligations.HostAccessesTouchOnePiece : Prop :=
  ∀ (s : State) (k : Fin 16) (b : Bool),
    (∃ t, (Transaction.setKey k b).run s = t ∧
      (∀ j : Fin 16, t.keys[j] = if j = k then b else s.keys[j]) ∧
      t = { s with keys := t.keys }) ∧
    Transaction.clearDirty.run s = { s with dirty := false } ∧
    Transaction.readDisplay.run s = s ∧
    Transaction.readDisplay.response s = .display s.gfx s.dirty

/-! ### The whole machine -/

/-- No instruction reads the dirty flag (R19): the outcome of a cycle and everything but the flag
itself do not depend on it. -/
def Obligations.DirtyIsNeverRead : Prop :=
  ∀ (s : State) (b : Bool), cycleResponse (s.setDirty b) = cycleResponse s ∧
    (afterCycle (s.setDirty b)).setDirty false = (afterCycle s).setDirty false

/-- No instruction can observe the entries at SP and above (R16, which marks it as decision D29): two
states that differ only there give the same outcome and states that differ only there. -/
def Obligations.StaleEntriesUnobservable : Prop :=
  ∀ s s' : State, AgreeBelowSp s s' → cycleResponse s' = cycleResponse s ∧
    AgreeBelowSp (afterCycle s) (afterCycle s')

/-- Which instructions write I, SP, the stack and the timers, and that none writes a key or IR (the
fetch does) (R14 to R18, R22, R128). That none writes a parameter (log 1), and that only RND moves
the model's own draw counter (log 2), is the model's choice. -/
def Obligations.SpecialStateWriters : Prop :=
  ∀ (i : Instr) (s t : State), exec i s = .next t →
    t.keys = s.keys ∧ t.ir = s.ir ∧ t.cfg = s.cfg ∧
    (t.dt = s.dt ∨ ∃ x, i = .ldDtVx x) ∧ (t.st = s.st ∨ ∃ x, i = .ldStVx x) ∧
    (t.stack = s.stack ∨ ∃ nnn, i = .call nnn) ∧
    (t.sp = s.sp ∨ i = .ret ∨ ∃ nnn, i = .call nnn) ∧
    (t.i = s.i ∨ (∃ nnn, i = .ldI nnn) ∨
      ∃ x, i = .addI x ∨ i = .ldF x ∨ i = .stRegs x ∨ i = .ldRegs x) ∧
    (t.draws = s.draws ∨ ∃ x nn, i = .rnd x nn)

/-- Only LD B and LD [I] write memory, only CLS and DRW write the display and the dirty flag
(R20, R21, R33). -/
def Obligations.MemoryAndDisplayWriters : Prop :=
  ∀ (i : Instr) (s t : State), exec i s = .next t →
    (KeepsMemory s t ∧ t.mem = s.mem ∨ ∃ x, i = .ldB x ∨ i = .stRegs x) ∧
    (t.gfx = s.gfx ∧ t.dirty = s.dirty ∨ i = .cls ∨ ∃ x y n, i = .drw x y n)

/-- VF changes only under a flag instruction of R11 or as the destination itself; a flag instruction
that does not name VF leaves 0 or 1 in it. That Fx1E is one is decision D4 (log 9). -/
def Obligations.FlagWriters : Prop :=
  ∀ (i : Instr) (s t : State), exec i s = .next t →
    (t.v vf = s.v vf ∨
      (∃ x y, i = .addReg x y ∨ i = .sub x y ∨ i = .shr x y ∨ i = .subn x y ∨ i = .shl x y ∨
        (∃ n, i = .drw x y n) ∨ i = .addI x) ∨
      (∃ nn, i = .ldImm vf nn ∨ i = .addImm vf nn ∨ i = .rnd vf nn) ∨
      (∃ y, i = .ldReg vf y ∨ i = .or vf y ∨ i = .and vf y ∨ i = .xor vf y) ∨
      i = .ldVxDt vf ∨ i = .ldVxK vf ∨ i = .ldRegs vf) ∧
    (∀ x y n, (i = .drw x y n ∨ (i = .addI x ∧ s.cfg.fx1eVf = .writesOverflow) ∨
        x ≠ vf ∧ (i = .addReg x y ∨ i = .sub x y ∨ i = .shr x y ∨ i = .subn x y ∨ i = .shl x y)) →
      t.v vf = 0 ∨ t.v vf = 1)

/-- The invariants of R26 hold after reset (the parameters at their defaults, log 1). -/
def Obligations.InvHoldsAtReset : Prop := StateInv State.reset

/-- Every step keeps the invariants of R26 (which the spec marks as derived): the stack pointer and
the return addresses, I, PC, and the canonical form of memory. -/
def Obligations.StepKeepsInv : Prop :=
  ∀ s t : State, StateInv s → step s = .next t → StateInv t

/-- The invariants of R26 hold in every state that any interleaving of transactions reaches after an
`Init`, under any setting of the parameters (log 1, log 17). -/
def Obligations.ReachableHasInv : Prop := ∀ s : State, Reachable s → StateInv s
end

