-- ==== Sys2Proof/Laws/Decode.lean ====
section
/-! SUPPORT. The fields of a word (spec/30_encoding.md R48): what they are of a word that is put
together from its parts, and that a word is put together from its fields. -/

namespace Sys2Proof

/-! ### Taking a concatenation apart -/

/-- The high part of a concatenation. -/
theorem extract_append_high {a b : Nat} (u : BitVec a) (v : BitVec b) :
    (u ++ v).extractLsb' b a = u := by
  apply BitVec.eq_of_getElem_eq; intro k hk
  simp [BitVec.getElem_extractLsb', BitVec.getLsbD_append, hk]

/-- A field that lies in the low part of a concatenation. -/
theorem extract_append_low {a b : Nat} (u : BitVec a) (v : BitVec b) {s l : Nat} (h : s + l ≤ b) :
    (u ++ v).extractLsb' s l = v.extractLsb' s l := by
  apply BitVec.eq_of_getElem_eq; intro k hk
  simp [BitVec.getElem_extractLsb', BitVec.getLsbD_append, show s + k < b by omega]

/-- Two fields that lie side by side, put together again. -/
theorem append_extract {n : Nat} (w : BitVec n) (s a b : Nat) :
    w.extractLsb' (s + b) a ++ w.extractLsb' s b = w.extractLsb' s (a + b) := by
  apply BitVec.eq_of_getElem_eq; intro k hk
  simp only [BitVec.getElem_append, BitVec.getElem_extractLsb']
  split
  · rfl
  · rename_i h; congr 1; omega

/-! ### The fields of a word of each format -/

section Fields

variable (op x y n : Nibble) (nn : Byte) (nnn : Addr12)

@[simp] theorem fieldOp_wordNnn : fieldOp (wordNnn op nnn) = op := extract_append_high op nnn

@[simp] theorem fieldNnn_wordNnn : fieldNnn (wordNnn op nnn) = nnn :=
  (extract_append_low op nnn (s := 0) (l := 12) (by decide)).trans BitVec.extractLsb'_eq_self

@[simp] theorem fieldOp_wordXnn : fieldOp (wordXnn op x nn) = op := fieldOp_wordNnn op (x ++ nn)

@[simp] theorem fieldX_wordXnn : fieldX (wordXnn op x nn) = x :=
  (extract_append_low op (x ++ nn) (s := 8) (l := 4) (by decide)).trans (extract_append_high x nn)

@[simp] theorem fieldNn_wordXnn : fieldNn (wordXnn op x nn) = nn :=
  ((extract_append_low op (x ++ nn) (s := 0) (l := 8) (by decide)).trans
    (extract_append_low x nn (s := 0) (l := 8) (by decide))).trans BitVec.extractLsb'_eq_self

@[simp] theorem fieldOp_wordXyn : fieldOp (wordXyn op x y n) = op :=
  fieldOp_wordXnn op x (y ++ n)

@[simp] theorem fieldX_wordXyn : fieldX (wordXyn op x y n) = x := fieldX_wordXnn op x (y ++ n)

@[simp] theorem fieldY_wordXyn : fieldY (wordXyn op x y n) = y :=
  ((extract_append_low op (x ++ (y ++ n)) (s := 4) (l := 4) (by decide)).trans
    (extract_append_low x (y ++ n) (s := 4) (l := 4) (by decide))).trans (extract_append_high y n)

@[simp] theorem fieldN_wordXyn : fieldN (wordXyn op x y n) = n :=
  (((extract_append_low op (x ++ (y ++ n)) (s := 0) (l := 4) (by decide)).trans
    (extract_append_low x (y ++ n) (s := 0) (l := 4) (by decide))).trans
    (extract_append_low y n (s := 0) (l := 4) (by decide))).trans BitVec.extractLsb'_eq_self

end Fields

/-! ### A word from its fields (R48) -/

theorem wordNnn_fields (w : Word) : wordNnn (fieldOp w) (fieldNnn w) = w :=
  (append_extract w 0 4 12).trans BitVec.extractLsb'_eq_self

/-- The nnn field is x and nn side by side (R48). -/
theorem fieldNnn_eq (w : Word) : fieldNnn w = fieldX w ++ fieldNn w :=
  (append_extract w 0 4 8).symm

/-- The nn field is y and n side by side (R48). -/
theorem fieldNn_eq (w : Word) : fieldNn w = fieldY w ++ fieldN w :=
  (append_extract w 0 4 4).symm

theorem wordXnn_fields (w : Word) : wordXnn (fieldOp w) (fieldX w) (fieldNn w) = w := by
  rw [wordXnn, ← fieldNnn_eq]; exact wordNnn_fields w

theorem wordXyn_fields (w : Word) : wordXyn (fieldOp w) (fieldX w) (fieldY w) (fieldN w) = w := by
  rw [wordXyn, ← fieldNn_eq]; exact wordXnn_fields w

/-! ### Words as numbers -/

/-- A concatenation as a number. -/
theorem toNat_append_eq {a b : Nat} (u : BitVec a) (v : BitVec b) :
    (u ++ v).toNat = u.toNat * 2 ^ b + v.toNat := by
  rw [BitVec.toNat_append, ← Nat.shiftLeft_add_eq_or_of_lt v.isLt, Nat.shiftLeft_eq]

theorem toNat_wordNnn (op : Nibble) (nnn : Addr12) :
    (wordNnn op nnn).toNat = op.toNat * 0x1000 + nnn.toNat := toNat_append_eq op nnn

theorem toNat_wordXnn (op x : Nibble) (nn : Byte) :
    (wordXnn op x nn).toNat = op.toNat * 0x1000 + (x.toNat * 256 + nn.toNat) :=
  (toNat_wordNnn op (x ++ nn)).trans (congrArg _ (toNat_append_eq x nn))

theorem toNat_wordXyn (op x y n : Nibble) :
    (wordXyn op x y n).toNat = op.toNat * 0x1000 + (x.toNat * 256 + (y.toNat * 16 + n.toNat)) :=
  (toNat_wordXnn op x (y ++ n)).trans
    (congrArg (fun k => op.toNat * 0x1000 + (x.toNat * 256 + k)) (toNat_append_eq y n))

/-! ### Bytes -/

@[simp] theorem wordOfBytes_bytes (w : Word) : wordOfBytes (highByte w) (lowByte w) = w :=
  (append_extract w 0 8 8).trans BitVec.extractLsb'_eq_self

/-- The word of two bytes is the first times 256 plus the second (R30). -/
theorem toNat_wordOfBytes (hi lo : Byte) :
    (wordOfBytes hi lo).toNat = hi.toNat * 256 + lo.toNat := toNat_append_eq hi lo

/-- What the decoder answers on two bytes or more, in terms of the word they make. -/
theorem decode_cons (p : AnnnPolicy) (w : Word) (rest : List Byte) :
    decode p (highByte w :: lowByte w :: rest)
      = match decodeWord p w with
        | some i => .ok (i, rest)
        | none => .error (.unrecognized w) := by
  cases h : decodeWord p w <;> simp only [decode, wordOfBytes_bytes, h]

end Sys2Proof
end

