-- ==== Sys2Proof/Laws/State.lean ====
section
/-! SUPPORT. One lemma per field per update of the state, and the small lemmas of the registers, so
that no proof unfolds a record update. -/

namespace Sys2Proof.Machine

/-- The size of the memory, for arithmetic (R4). -/
theorem memSize_eq : memSize = 4096 := rfl

/-- The size of the font, for arithmetic (R4). -/
theorem fontSize_eq : fontSize = 80 := rfl

namespace State

variable (s : State)

/-! ### setRegs -/

@[simp] theorem setRegs_regs (r : Vector Byte 16) : (s.setRegs r).regs = r := rfl
@[simp] theorem setRegs_i (r : Vector Byte 16) : (s.setRegs r).i = s.i := rfl
@[simp] theorem setRegs_pc (r : Vector Byte 16) : (s.setRegs r).pc = s.pc := rfl
@[simp] theorem setRegs_sp (r : Vector Byte 16) : (s.setRegs r).sp = s.sp := rfl
@[simp] theorem setRegs_stack (r : Vector Byte 16) : (s.setRegs r).stack = s.stack := rfl
@[simp] theorem setRegs_dt (r : Vector Byte 16) : (s.setRegs r).dt = s.dt := rfl
@[simp] theorem setRegs_st (r : Vector Byte 16) : (s.setRegs r).st = s.st := rfl
@[simp] theorem setRegs_ir (r : Vector Byte 16) : (s.setRegs r).ir = s.ir := rfl
@[simp] theorem setRegs_dirty (r : Vector Byte 16) : (s.setRegs r).dirty = s.dirty := rfl
@[simp] theorem setRegs_mem (r : Vector Byte 16) : (s.setRegs r).mem = s.mem := rfl
@[simp] theorem setRegs_gfx (r : Vector Byte 16) : (s.setRegs r).gfx = s.gfx := rfl
@[simp] theorem setRegs_keys (r : Vector Byte 16) : (s.setRegs r).keys = s.keys := rfl
@[simp] theorem setRegs_cfg (r : Vector Byte 16) : (s.setRegs r).cfg = s.cfg := rfl
@[simp] theorem setRegs_draws (r : Vector Byte 16) : (s.setRegs r).draws = s.draws := rfl

/-! ### setI -/

@[simp] theorem setI_regs (a : Word) : (s.setI a).regs = s.regs := rfl
@[simp] theorem setI_i (a : Word) : (s.setI a).i = a := rfl
@[simp] theorem setI_pc (a : Word) : (s.setI a).pc = s.pc := rfl
@[simp] theorem setI_sp (a : Word) : (s.setI a).sp = s.sp := rfl
@[simp] theorem setI_stack (a : Word) : (s.setI a).stack = s.stack := rfl
@[simp] theorem setI_dt (a : Word) : (s.setI a).dt = s.dt := rfl
@[simp] theorem setI_st (a : Word) : (s.setI a).st = s.st := rfl
@[simp] theorem setI_ir (a : Word) : (s.setI a).ir = s.ir := rfl
@[simp] theorem setI_dirty (a : Word) : (s.setI a).dirty = s.dirty := rfl
@[simp] theorem setI_mem (a : Word) : (s.setI a).mem = s.mem := rfl
@[simp] theorem setI_gfx (a : Word) : (s.setI a).gfx = s.gfx := rfl
@[simp] theorem setI_keys (a : Word) : (s.setI a).keys = s.keys := rfl
@[simp] theorem setI_cfg (a : Word) : (s.setI a).cfg = s.cfg := rfl
@[simp] theorem setI_draws (a : Word) : (s.setI a).draws = s.draws := rfl

/-! ### setPc -/

@[simp] theorem setPc_regs (a : Word) : (s.setPc a).regs = s.regs := rfl
@[simp] theorem setPc_i (a : Word) : (s.setPc a).i = s.i := rfl
@[simp] theorem setPc_pc (a : Word) : (s.setPc a).pc = a := rfl
@[simp] theorem setPc_sp (a : Word) : (s.setPc a).sp = s.sp := rfl
@[simp] theorem setPc_stack (a : Word) : (s.setPc a).stack = s.stack := rfl
@[simp] theorem setPc_dt (a : Word) : (s.setPc a).dt = s.dt := rfl
@[simp] theorem setPc_st (a : Word) : (s.setPc a).st = s.st := rfl
@[simp] theorem setPc_ir (a : Word) : (s.setPc a).ir = s.ir := rfl
@[simp] theorem setPc_dirty (a : Word) : (s.setPc a).dirty = s.dirty := rfl
@[simp] theorem setPc_mem (a : Word) : (s.setPc a).mem = s.mem := rfl
@[simp] theorem setPc_gfx (a : Word) : (s.setPc a).gfx = s.gfx := rfl
@[simp] theorem setPc_keys (a : Word) : (s.setPc a).keys = s.keys := rfl
@[simp] theorem setPc_cfg (a : Word) : (s.setPc a).cfg = s.cfg := rfl
@[simp] theorem setPc_draws (a : Word) : (s.setPc a).draws = s.draws := rfl

/-! ### setSp -/

@[simp] theorem setSp_regs (n : Byte) : (s.setSp n).regs = s.regs := rfl
@[simp] theorem setSp_i (n : Byte) : (s.setSp n).i = s.i := rfl
@[simp] theorem setSp_pc (n : Byte) : (s.setSp n).pc = s.pc := rfl
@[simp] theorem setSp_sp (n : Byte) : (s.setSp n).sp = n := rfl
@[simp] theorem setSp_stack (n : Byte) : (s.setSp n).stack = s.stack := rfl
@[simp] theorem setSp_dt (n : Byte) : (s.setSp n).dt = s.dt := rfl
@[simp] theorem setSp_st (n : Byte) : (s.setSp n).st = s.st := rfl
@[simp] theorem setSp_ir (n : Byte) : (s.setSp n).ir = s.ir := rfl
@[simp] theorem setSp_dirty (n : Byte) : (s.setSp n).dirty = s.dirty := rfl
@[simp] theorem setSp_mem (n : Byte) : (s.setSp n).mem = s.mem := rfl
@[simp] theorem setSp_gfx (n : Byte) : (s.setSp n).gfx = s.gfx := rfl
@[simp] theorem setSp_keys (n : Byte) : (s.setSp n).keys = s.keys := rfl
@[simp] theorem setSp_cfg (n : Byte) : (s.setSp n).cfg = s.cfg := rfl
@[simp] theorem setSp_draws (n : Byte) : (s.setSp n).draws = s.draws := rfl

/-! ### setStack -/

@[simp] theorem setStack_regs (k : Vector Word 16) : (s.setStack k).regs = s.regs := rfl
@[simp] theorem setStack_i (k : Vector Word 16) : (s.setStack k).i = s.i := rfl
@[simp] theorem setStack_pc (k : Vector Word 16) : (s.setStack k).pc = s.pc := rfl
@[simp] theorem setStack_sp (k : Vector Word 16) : (s.setStack k).sp = s.sp := rfl
@[simp] theorem setStack_stack (k : Vector Word 16) : (s.setStack k).stack = k := rfl
@[simp] theorem setStack_dt (k : Vector Word 16) : (s.setStack k).dt = s.dt := rfl
@[simp] theorem setStack_st (k : Vector Word 16) : (s.setStack k).st = s.st := rfl
@[simp] theorem setStack_ir (k : Vector Word 16) : (s.setStack k).ir = s.ir := rfl
@[simp] theorem setStack_dirty (k : Vector Word 16) : (s.setStack k).dirty = s.dirty := rfl
@[simp] theorem setStack_mem (k : Vector Word 16) : (s.setStack k).mem = s.mem := rfl
@[simp] theorem setStack_gfx (k : Vector Word 16) : (s.setStack k).gfx = s.gfx := rfl
@[simp] theorem setStack_keys (k : Vector Word 16) : (s.setStack k).keys = s.keys := rfl
@[simp] theorem setStack_cfg (k : Vector Word 16) : (s.setStack k).cfg = s.cfg := rfl
@[simp] theorem setStack_draws (k : Vector Word 16) : (s.setStack k).draws = s.draws := rfl

/-! ### setDt -/

@[simp] theorem setDt_regs (n : Byte) : (s.setDt n).regs = s.regs := rfl
@[simp] theorem setDt_i (n : Byte) : (s.setDt n).i = s.i := rfl
@[simp] theorem setDt_pc (n : Byte) : (s.setDt n).pc = s.pc := rfl
@[simp] theorem setDt_sp (n : Byte) : (s.setDt n).sp = s.sp := rfl
@[simp] theorem setDt_stack (n : Byte) : (s.setDt n).stack = s.stack := rfl
@[simp] theorem setDt_dt (n : Byte) : (s.setDt n).dt = n := rfl
@[simp] theorem setDt_st (n : Byte) : (s.setDt n).st = s.st := rfl
@[simp] theorem setDt_ir (n : Byte) : (s.setDt n).ir = s.ir := rfl
@[simp] theorem setDt_dirty (n : Byte) : (s.setDt n).dirty = s.dirty := rfl
@[simp] theorem setDt_mem (n : Byte) : (s.setDt n).mem = s.mem := rfl
@[simp] theorem setDt_gfx (n : Byte) : (s.setDt n).gfx = s.gfx := rfl
@[simp] theorem setDt_keys (n : Byte) : (s.setDt n).keys = s.keys := rfl
@[simp] theorem setDt_cfg (n : Byte) : (s.setDt n).cfg = s.cfg := rfl
@[simp] theorem setDt_draws (n : Byte) : (s.setDt n).draws = s.draws := rfl

/-! ### setSt -/

@[simp] theorem setSt_regs (n : Byte) : (s.setSt n).regs = s.regs := rfl
@[simp] theorem setSt_i (n : Byte) : (s.setSt n).i = s.i := rfl
@[simp] theorem setSt_pc (n : Byte) : (s.setSt n).pc = s.pc := rfl
@[simp] theorem setSt_sp (n : Byte) : (s.setSt n).sp = s.sp := rfl
@[simp] theorem setSt_stack (n : Byte) : (s.setSt n).stack = s.stack := rfl
@[simp] theorem setSt_dt (n : Byte) : (s.setSt n).dt = s.dt := rfl
@[simp] theorem setSt_st (n : Byte) : (s.setSt n).st = n := rfl
@[simp] theorem setSt_ir (n : Byte) : (s.setSt n).ir = s.ir := rfl
@[simp] theorem setSt_dirty (n : Byte) : (s.setSt n).dirty = s.dirty := rfl
@[simp] theorem setSt_mem (n : Byte) : (s.setSt n).mem = s.mem := rfl
@[simp] theorem setSt_gfx (n : Byte) : (s.setSt n).gfx = s.gfx := rfl
@[simp] theorem setSt_keys (n : Byte) : (s.setSt n).keys = s.keys := rfl
@[simp] theorem setSt_cfg (n : Byte) : (s.setSt n).cfg = s.cfg := rfl
@[simp] theorem setSt_draws (n : Byte) : (s.setSt n).draws = s.draws := rfl

/-! ### setIr -/

@[simp] theorem setIr_regs (w : Word) : (s.setIr w).regs = s.regs := rfl
@[simp] theorem setIr_i (w : Word) : (s.setIr w).i = s.i := rfl
@[simp] theorem setIr_pc (w : Word) : (s.setIr w).pc = s.pc := rfl
@[simp] theorem setIr_sp (w : Word) : (s.setIr w).sp = s.sp := rfl
@[simp] theorem setIr_stack (w : Word) : (s.setIr w).stack = s.stack := rfl
@[simp] theorem setIr_dt (w : Word) : (s.setIr w).dt = s.dt := rfl
@[simp] theorem setIr_st (w : Word) : (s.setIr w).st = s.st := rfl
@[simp] theorem setIr_ir (w : Word) : (s.setIr w).ir = w := rfl
@[simp] theorem setIr_dirty (w : Word) : (s.setIr w).dirty = s.dirty := rfl
@[simp] theorem setIr_mem (w : Word) : (s.setIr w).mem = s.mem := rfl
@[simp] theorem setIr_gfx (w : Word) : (s.setIr w).gfx = s.gfx := rfl
@[simp] theorem setIr_keys (w : Word) : (s.setIr w).keys = s.keys := rfl
@[simp] theorem setIr_cfg (w : Word) : (s.setIr w).cfg = s.cfg := rfl
@[simp] theorem setIr_draws (w : Word) : (s.setIr w).draws = s.draws := rfl

/-! ### setDirty -/

@[simp] theorem setDirty_regs (b : Bool) : (s.setDirty b).regs = s.regs := rfl
@[simp] theorem setDirty_i (b : Bool) : (s.setDirty b).i = s.i := rfl
@[simp] theorem setDirty_pc (b : Bool) : (s.setDirty b).pc = s.pc := rfl
@[simp] theorem setDirty_sp (b : Bool) : (s.setDirty b).sp = s.sp := rfl
@[simp] theorem setDirty_stack (b : Bool) : (s.setDirty b).stack = s.stack := rfl
@[simp] theorem setDirty_dt (b : Bool) : (s.setDirty b).dt = s.dt := rfl
@[simp] theorem setDirty_st (b : Bool) : (s.setDirty b).st = s.st := rfl
@[simp] theorem setDirty_ir (b : Bool) : (s.setDirty b).ir = s.ir := rfl
@[simp] theorem setDirty_dirty (b : Bool) : (s.setDirty b).dirty = b := rfl
@[simp] theorem setDirty_mem (b : Bool) : (s.setDirty b).mem = s.mem := rfl
@[simp] theorem setDirty_gfx (b : Bool) : (s.setDirty b).gfx = s.gfx := rfl
@[simp] theorem setDirty_keys (b : Bool) : (s.setDirty b).keys = s.keys := rfl
@[simp] theorem setDirty_cfg (b : Bool) : (s.setDirty b).cfg = s.cfg := rfl
@[simp] theorem setDirty_draws (b : Bool) : (s.setDirty b).draws = s.draws := rfl

/-! ### setMem -/

@[simp] theorem setMem_regs (m : Memory) : (s.setMem m).regs = s.regs := rfl
@[simp] theorem setMem_i (m : Memory) : (s.setMem m).i = s.i := rfl
@[simp] theorem setMem_pc (m : Memory) : (s.setMem m).pc = s.pc := rfl
@[simp] theorem setMem_sp (m : Memory) : (s.setMem m).sp = s.sp := rfl
@[simp] theorem setMem_stack (m : Memory) : (s.setMem m).stack = s.stack := rfl
@[simp] theorem setMem_dt (m : Memory) : (s.setMem m).dt = s.dt := rfl
@[simp] theorem setMem_st (m : Memory) : (s.setMem m).st = s.st := rfl
@[simp] theorem setMem_ir (m : Memory) : (s.setMem m).ir = s.ir := rfl
@[simp] theorem setMem_dirty (m : Memory) : (s.setMem m).dirty = s.dirty := rfl
@[simp] theorem setMem_mem (m : Memory) : (s.setMem m).mem = m := rfl
@[simp] theorem setMem_gfx (m : Memory) : (s.setMem m).gfx = s.gfx := rfl
@[simp] theorem setMem_keys (m : Memory) : (s.setMem m).keys = s.keys := rfl
@[simp] theorem setMem_cfg (m : Memory) : (s.setMem m).cfg = s.cfg := rfl
@[simp] theorem setMem_draws (m : Memory) : (s.setMem m).draws = s.draws := rfl

/-! ### setGfx -/

@[simp] theorem setGfx_regs (g : Gfx) : (s.setGfx g).regs = s.regs := rfl
@[simp] theorem setGfx_i (g : Gfx) : (s.setGfx g).i = s.i := rfl
@[simp] theorem setGfx_pc (g : Gfx) : (s.setGfx g).pc = s.pc := rfl
@[simp] theorem setGfx_sp (g : Gfx) : (s.setGfx g).sp = s.sp := rfl
@[simp] theorem setGfx_stack (g : Gfx) : (s.setGfx g).stack = s.stack := rfl
@[simp] theorem setGfx_dt (g : Gfx) : (s.setGfx g).dt = s.dt := rfl
@[simp] theorem setGfx_st (g : Gfx) : (s.setGfx g).st = s.st := rfl
@[simp] theorem setGfx_ir (g : Gfx) : (s.setGfx g).ir = s.ir := rfl
@[simp] theorem setGfx_dirty (g : Gfx) : (s.setGfx g).dirty = s.dirty := rfl
@[simp] theorem setGfx_mem (g : Gfx) : (s.setGfx g).mem = s.mem := rfl
@[simp] theorem setGfx_gfx (g : Gfx) : (s.setGfx g).gfx = g := rfl
@[simp] theorem setGfx_keys (g : Gfx) : (s.setGfx g).keys = s.keys := rfl
@[simp] theorem setGfx_cfg (g : Gfx) : (s.setGfx g).cfg = s.cfg := rfl
@[simp] theorem setGfx_draws (g : Gfx) : (s.setGfx g).draws = s.draws := rfl

/-! ### setKeys -/

@[simp] theorem setKeys_regs (k : Vector Bool 16) : (s.setKeys k).regs = s.regs := rfl
@[simp] theorem setKeys_i (k : Vector Bool 16) : (s.setKeys k).i = s.i := rfl
@[simp] theorem setKeys_pc (k : Vector Bool 16) : (s.setKeys k).pc = s.pc := rfl
@[simp] theorem setKeys_sp (k : Vector Bool 16) : (s.setKeys k).sp = s.sp := rfl
@[simp] theorem setKeys_stack (k : Vector Bool 16) : (s.setKeys k).stack = s.stack := rfl
@[simp] theorem setKeys_dt (k : Vector Bool 16) : (s.setKeys k).dt = s.dt := rfl
@[simp] theorem setKeys_st (k : Vector Bool 16) : (s.setKeys k).st = s.st := rfl
@[simp] theorem setKeys_ir (k : Vector Bool 16) : (s.setKeys k).ir = s.ir := rfl
@[simp] theorem setKeys_dirty (k : Vector Bool 16) : (s.setKeys k).dirty = s.dirty := rfl
@[simp] theorem setKeys_mem (k : Vector Bool 16) : (s.setKeys k).mem = s.mem := rfl
@[simp] theorem setKeys_gfx (k : Vector Bool 16) : (s.setKeys k).gfx = s.gfx := rfl
@[simp] theorem setKeys_keys (k : Vector Bool 16) : (s.setKeys k).keys = k := rfl
@[simp] theorem setKeys_cfg (k : Vector Bool 16) : (s.setKeys k).cfg = s.cfg := rfl
@[simp] theorem setKeys_draws (k : Vector Bool 16) : (s.setKeys k).draws = s.draws := rfl

/-! ### setDraws -/

@[simp] theorem setDraws_regs (n : Nat) : (s.setDraws n).regs = s.regs := rfl
@[simp] theorem setDraws_i (n : Nat) : (s.setDraws n).i = s.i := rfl
@[simp] theorem setDraws_pc (n : Nat) : (s.setDraws n).pc = s.pc := rfl
@[simp] theorem setDraws_sp (n : Nat) : (s.setDraws n).sp = s.sp := rfl
@[simp] theorem setDraws_stack (n : Nat) : (s.setDraws n).stack = s.stack := rfl
@[simp] theorem setDraws_dt (n : Nat) : (s.setDraws n).dt = s.dt := rfl
@[simp] theorem setDraws_st (n : Nat) : (s.setDraws n).st = s.st := rfl
@[simp] theorem setDraws_ir (n : Nat) : (s.setDraws n).ir = s.ir := rfl
@[simp] theorem setDraws_dirty (n : Nat) : (s.setDraws n).dirty = s.dirty := rfl
@[simp] theorem setDraws_mem (n : Nat) : (s.setDraws n).mem = s.mem := rfl
@[simp] theorem setDraws_gfx (n : Nat) : (s.setDraws n).gfx = s.gfx := rfl
@[simp] theorem setDraws_keys (n : Nat) : (s.setDraws n).keys = s.keys := rfl
@[simp] theorem setDraws_cfg (n : Nat) : (s.setDraws n).cfg = s.cfg := rfl
@[simp] theorem setDraws_draws (n : Nat) : (s.setDraws n).draws = n := rfl

/-! ### The registers -/

@[simp] theorem v_setV (x y : Nibble) (b : Byte) :
    (s.setV x b).v y = if y = x then b else s.v y := by
  simp only [v, setV, setRegs_regs, Vector.getElem_set]
  by_cases h : y = x
  · simp [h]
  · rw [if_neg (fun e => h (BitVec.eq_of_toNat_eq e.symm)), if_neg h]

@[simp] theorem v_setI (a : Word) (x : Nibble) : (s.setI a).v x = s.v x := rfl
@[simp] theorem v_setPc (a : Word) (x : Nibble) : (s.setPc a).v x = s.v x := rfl
@[simp] theorem v_setSp (n : Byte) (x : Nibble) : (s.setSp n).v x = s.v x := rfl
@[simp] theorem v_setStack (k : Vector Word 16) (x : Nibble) : (s.setStack k).v x = s.v x := rfl
@[simp] theorem v_setDt (n : Byte) (x : Nibble) : (s.setDt n).v x = s.v x := rfl
@[simp] theorem v_setSt (n : Byte) (x : Nibble) : (s.setSt n).v x = s.v x := rfl
@[simp] theorem v_setIr (w : Word) (x : Nibble) : (s.setIr w).v x = s.v x := rfl
@[simp] theorem v_setDirty (b : Bool) (x : Nibble) : (s.setDirty b).v x = s.v x := rfl
@[simp] theorem v_setMem (m : Memory) (x : Nibble) : (s.setMem m).v x = s.v x := rfl
@[simp] theorem v_setGfx (g : Gfx) (x : Nibble) : (s.setGfx g).v x = s.v x := rfl
@[simp] theorem v_setKeys (k : Vector Bool 16) (x : Nibble) : (s.setKeys k).v x = s.v x := rfl
@[simp] theorem v_setDraws (n : Nat) (x : Nibble) : (s.setDraws n).v x = s.v x := rfl

@[simp] theorem setV_i (x : Nibble) (b : Byte) : (s.setV x b).i = s.i := rfl
@[simp] theorem setV_pc (x : Nibble) (b : Byte) : (s.setV x b).pc = s.pc := rfl
@[simp] theorem setV_sp (x : Nibble) (b : Byte) : (s.setV x b).sp = s.sp := rfl
@[simp] theorem setV_stack (x : Nibble) (b : Byte) : (s.setV x b).stack = s.stack := rfl
@[simp] theorem setV_dt (x : Nibble) (b : Byte) : (s.setV x b).dt = s.dt := rfl
@[simp] theorem setV_st (x : Nibble) (b : Byte) : (s.setV x b).st = s.st := rfl
@[simp] theorem setV_ir (x : Nibble) (b : Byte) : (s.setV x b).ir = s.ir := rfl
@[simp] theorem setV_dirty (x : Nibble) (b : Byte) : (s.setV x b).dirty = s.dirty := rfl
@[simp] theorem setV_mem (x : Nibble) (b : Byte) : (s.setV x b).mem = s.mem := rfl
@[simp] theorem setV_gfx (x : Nibble) (b : Byte) : (s.setV x b).gfx = s.gfx := rfl
@[simp] theorem setV_keys (x : Nibble) (b : Byte) : (s.setV x b).keys = s.keys := rfl
@[simp] theorem setV_cfg (x : Nibble) (b : Byte) : (s.setV x b).cfg = s.cfg := rfl
@[simp] theorem setV_draws (x : Nibble) (b : Byte) : (s.setV x b).draws = s.draws := rfl

/-- Two register files that answer alike for every number are the same. -/
theorem regs_ext {s t : State} (h : ∀ x, t.v x = s.v x) : t.regs = s.regs := by
  apply Vector.ext
  intro k hk
  have := h (BitVec.ofNat 4 k)
  simpa [v, Nat.mod_eq_of_lt hk] using this

/-! ### Reading memory -/

@[simp] theorem readByte_setRegs (r : Vector Byte 16) (a : Nat) :
    (s.setRegs r).readByte a = s.readByte a := rfl
@[simp] theorem readByte_setI (b : Word) (a : Nat) :
    (s.setI b).readByte a = s.readByte a := rfl
@[simp] theorem readByte_setPc (b : Word) (a : Nat) :
    (s.setPc b).readByte a = s.readByte a := rfl
@[simp] theorem readByte_setSp (n : Byte) (a : Nat) :
    (s.setSp n).readByte a = s.readByte a := rfl
@[simp] theorem readByte_setStack (k : Vector Word 16) (a : Nat) :
    (s.setStack k).readByte a = s.readByte a := rfl
@[simp] theorem readByte_setDt (n : Byte) (a : Nat) :
    (s.setDt n).readByte a = s.readByte a := rfl
@[simp] theorem readByte_setSt (n : Byte) (a : Nat) :
    (s.setSt n).readByte a = s.readByte a := rfl
@[simp] theorem readByte_setIr (w : Word) (a : Nat) :
    (s.setIr w).readByte a = s.readByte a := rfl
@[simp] theorem readByte_setDirty (b : Bool) (a : Nat) :
    (s.setDirty b).readByte a = s.readByte a := rfl
@[simp] theorem readByte_setGfx (g : Gfx) (a : Nat) :
    (s.setGfx g).readByte a = s.readByte a := rfl
@[simp] theorem readByte_setKeys (k : Vector Bool 16) (a : Nat) :
    (s.setKeys k).readByte a = s.readByte a := rfl
@[simp] theorem readByte_setDraws (n : Nat) (a : Nat) :
    (s.setDraws n).readByte a = s.readByte a := rfl
@[simp] theorem readByte_setV (x : Nibble) (b : Byte) (a : Nat) :
    (s.setV x b).readByte a = s.readByte a := rfl

/-! ### Setting a field to what it is, and twice -/

@[simp] theorem setIr_setIr (w u : Word) : (s.setIr w).setIr u = s.setIr u := rfl

@[simp] theorem setPc_setPc (a b : Word) : (s.setPc a).setPc b = s.setPc b := rfl

end State

end Sys2Proof.Machine
end

