-- ==== Sys2Proof/Laws/Memory.lean ====
section
/-! SUPPORT. The laws of memory: a read after a write, and the canonical form that every operation
keeps. -/

namespace Sys2Proof.Machine

/-! ### The list of cells -/

theorem Memory.lookup_insert (m : Memory) (a b : Nat) (v : Byte) :
    Memory.lookup (Memory.insert m a v) b = if b = a then some v else Memory.lookup m b := by
  induction m with
  | nil => rfl
  | cons c rest ih =>
    obtain ⟨d, u⟩ := c
    simp only [Memory.insert]
    split
    · rfl
    · split
      · rename_i h; subst h
        by_cases hb : b = a <;> simp [Memory.lookup, hb]
      · simp only [Memory.lookup, ih]
        by_cases hb : b = d <;> simp [hb]
        omega

/-- An address below every listed one is not listed. -/
theorem Memory.lookup_none_of_lt {m : Memory} {a : Nat} (h : ∀ c ∈ m, a < c.1) :
    Memory.lookup m a = none := by
  induction m with
  | nil => rfl
  | cons c rest ih =>
    obtain ⟨d, u⟩ := c
    have hd : a < d := h _ List.mem_cons_self
    simp only [Memory.lookup, if_neg (Nat.ne_of_lt hd)]
    exact ih fun c hc => h c (List.mem_cons_of_mem _ hc)

theorem Memory.lookup_erase {m : Memory} (hm : m.Pairwise (fun c d => c.1 < d.1)) (a b : Nat) :
    Memory.lookup (Memory.erase m a) b = if b = a then none else Memory.lookup m b := by
  induction m with
  | nil => simp [Memory.erase, Memory.lookup]
  | cons c rest ih =>
    obtain ⟨d, u⟩ := c
    rw [List.pairwise_cons] at hm
    simp only [Memory.erase]
    split
    · rename_i h; subst h
      by_cases hb : b = a
      · subst hb; simpa using Memory.lookup_none_of_lt hm.1
      · simp [Memory.lookup, hb]
    · simp only [Memory.lookup, ih hm.2]
      by_cases hb : b = d <;> simp [hb]
      omega

theorem Memory.mem_insert {m : Memory} {a : Nat} {v : Byte} {c : Host.Cell}
    (h : c ∈ Memory.insert m a v) : c = (a, v) ∨ c ∈ m := by
  induction m with
  | nil => simpa [Memory.insert] using h
  | cons d rest ih =>
    obtain ⟨d, u⟩ := d
    simp only [Memory.insert] at h
    split at h
    · simpa using h
    · split at h
      · rcases List.mem_cons.1 h with h | h <;> simp [h]
      · rcases List.mem_cons.1 h with h | h
        · simp [h]
        · rcases ih h with h | h <;> simp [h]

theorem Memory.mem_of_mem_erase {m : Memory} {a : Nat} {c : Host.Cell}
    (h : c ∈ Memory.erase m a) : c ∈ m := by
  induction m with
  | nil => exact h
  | cons d rest ih =>
    obtain ⟨d, u⟩ := d
    simp only [Memory.erase] at h
    split at h
    · exact List.mem_cons_of_mem _ h
    · rcases List.mem_cons.1 h with h | h
      · simp [h]
      · exact List.mem_cons_of_mem _ (ih h)

theorem Memory.pairwise_insert {m : Memory} (hm : m.Pairwise (fun c d => c.1 < d.1)) (a : Nat)
    (v : Byte) : (Memory.insert m a v).Pairwise (fun c d => c.1 < d.1) := by
  induction m with
  | nil => simp [Memory.insert]
  | cons d rest ih =>
    obtain ⟨d, u⟩ := d
    have hr := List.pairwise_cons.1 hm
    simp only [Memory.insert]
    split
    · rename_i h
      refine List.pairwise_cons.2 ⟨fun c hc => ?_, hm⟩
      rcases List.mem_cons.1 hc with hc | hc
      · simpa [hc] using h
      · exact Nat.lt_trans h (hr.1 c hc)
    · split
      · rename_i h; subst h
        exact List.pairwise_cons.2 hr
      · refine List.pairwise_cons.2 ⟨fun c hc => ?_, ih hr.2⟩
        rcases Memory.mem_insert hc with hc | hc
        · simp only [hc]; omega
        · exact hr.1 c hc

theorem Memory.pairwise_erase {m : Memory} (hm : m.Pairwise (fun c d => c.1 < d.1)) (a : Nat) :
    (Memory.erase m a).Pairwise (fun c d => c.1 < d.1) := by
  induction m with
  | nil => exact hm
  | cons d rest ih =>
    obtain ⟨d, u⟩ := d
    have hr := List.pairwise_cons.1 hm
    simp only [Memory.erase]
    split
    · exact hr.2
    · exact List.pairwise_cons.2
        ⟨fun c hc => hr.1 c (Memory.mem_of_mem_erase hc), ih hr.2⟩

/-! ### Reading and writing -/

/-- A read after a write: the byte written there, and every other byte as before. -/
theorem Memory.read_write {font : Font} {m : Memory} (hm : m.wf font) (a b : Nat) (v : Byte) :
    Memory.read font (Memory.write font m a v) b
      = if b = a then v else Memory.read font m b := by
  simp only [Memory.read, Memory.write]
  split
  · rename_i hv
    rw [Memory.lookup_erase hm.1]
    by_cases hb : b = a <;> simp [hb, hv]
  · rw [Memory.lookup_insert]
    by_cases hb : b = a <;> simp [hb]

/-- A write inside the memory keeps the canonical form. -/
theorem Memory.wf_write {font : Font} {m : Memory} (hm : m.wf font) {a : Nat} (ha : a < memSize)
    (v : Byte) : (Memory.write font m a v).wf font := by
  simp only [Memory.write]
  split
  · exact ⟨Memory.pairwise_erase hm.1 a, fun c hc => hm.2 c (Memory.mem_of_mem_erase hc)⟩
  · rename_i hv
    refine ⟨Memory.pairwise_insert hm.1 a v, fun c hc => ?_⟩
    rcases Memory.mem_insert hc with rfl | hc
    · exact ⟨ha, hv⟩
    · exact hm.2 c hc

/-- The empty list, which is the memory `Init` leaves, is in the canonical form. -/
theorem Memory.wf_nil (font : Font) : Memory.wf font [] := by simp [Memory.wf]

/-- The memory of the reset state is in the canonical form. -/
theorem State.reset_mem_wf : State.reset.mem.wf State.reset.cfg.font := Memory.wf_nil _

/-! ### One byte of the state's memory -/

theorem State.readByte_storeByte {s : State} (hm : s.mem.wf s.cfg.font) (a b : Nat) (v : Byte) :
    (s.storeByte a v).readByte b = if b = a then v else s.readByte b :=
  Memory.read_write hm a b v

theorem State.storeByte_wf {s : State} (hm : s.mem.wf s.cfg.font) {a : Nat} (ha : a < memSize)
    (v : Byte) : (s.storeByte a v).mem.wf (s.storeByte a v).cfg.font :=
  Memory.wf_write hm ha v

/-! ### Several bytes -/

/-- Everything a multi-byte store can do: it changes the memory and nothing else. -/
theorem State.storeBytes_eq_setMem (s : State) (a : Nat) (bs : List Byte) :
    s.storeBytes a bs = s.setMem (s.storeBytes a bs).mem := by
  induction bs generalizing s a with
  | nil => rfl
  | cons b bs ih => exact ih (s.storeByte a b) (a + 1)

/-! The fields a multi-byte store leaves alone. -/

@[simp] theorem State.storeBytes_regs (s : State) (a : Nat) (bs : List Byte) :
    (s.storeBytes a bs).regs = s.regs := by rw [State.storeBytes_eq_setMem]; rfl

@[simp] theorem State.storeBytes_i (s : State) (a : Nat) (bs : List Byte) :
    (s.storeBytes a bs).i = s.i := by rw [State.storeBytes_eq_setMem]; rfl

@[simp] theorem State.storeBytes_pc (s : State) (a : Nat) (bs : List Byte) :
    (s.storeBytes a bs).pc = s.pc := by rw [State.storeBytes_eq_setMem]; rfl

@[simp] theorem State.storeBytes_sp (s : State) (a : Nat) (bs : List Byte) :
    (s.storeBytes a bs).sp = s.sp := by rw [State.storeBytes_eq_setMem]; rfl

@[simp] theorem State.storeBytes_stack (s : State) (a : Nat) (bs : List Byte) :
    (s.storeBytes a bs).stack = s.stack := by rw [State.storeBytes_eq_setMem]; rfl

@[simp] theorem State.storeBytes_dt (s : State) (a : Nat) (bs : List Byte) :
    (s.storeBytes a bs).dt = s.dt := by rw [State.storeBytes_eq_setMem]; rfl

@[simp] theorem State.storeBytes_st (s : State) (a : Nat) (bs : List Byte) :
    (s.storeBytes a bs).st = s.st := by rw [State.storeBytes_eq_setMem]; rfl

@[simp] theorem State.storeBytes_ir (s : State) (a : Nat) (bs : List Byte) :
    (s.storeBytes a bs).ir = s.ir := by rw [State.storeBytes_eq_setMem]; rfl

@[simp] theorem State.storeBytes_dirty (s : State) (a : Nat) (bs : List Byte) :
    (s.storeBytes a bs).dirty = s.dirty := by rw [State.storeBytes_eq_setMem]; rfl

@[simp] theorem State.storeBytes_gfx (s : State) (a : Nat) (bs : List Byte) :
    (s.storeBytes a bs).gfx = s.gfx := by rw [State.storeBytes_eq_setMem]; rfl

@[simp] theorem State.storeBytes_keys (s : State) (a : Nat) (bs : List Byte) :
    (s.storeBytes a bs).keys = s.keys := by rw [State.storeBytes_eq_setMem]; rfl

@[simp] theorem State.storeBytes_cfg (s : State) (a : Nat) (bs : List Byte) :
    (s.storeBytes a bs).cfg = s.cfg := by rw [State.storeBytes_eq_setMem]; rfl

@[simp] theorem State.storeBytes_draws (s : State) (a : Nat) (bs : List Byte) :
    (s.storeBytes a bs).draws = s.draws := by rw [State.storeBytes_eq_setMem]; rfl

@[simp] theorem State.readByte_setMem_storeBytes (s : State) (a : Nat) (bs : List Byte) (c : Nat) :
    (s.setMem (s.storeBytes a bs).mem).readByte c = (s.storeBytes a bs).readByte c := by
  rw [← State.storeBytes_eq_setMem]

theorem State.storeBytes_wf {s : State} (hm : s.mem.wf s.cfg.font) {a : Nat} {bs : List Byte}
    (h : bs = [] ∨ a + bs.length ≤ memSize) :
    (s.storeBytes a bs).mem.wf s.cfg.font := by
  induction bs generalizing s a with
  | nil => exact hm
  | cons b bs ih =>
    have h : a + (bs.length + 1) ≤ memSize := by simpa using h
    exact ih (s := s.storeByte a b) (State.storeByte_wf hm (by omega) b) (.inr (by omega))

/-- What a byte reads as after a multi-byte store: byte number `c - a` of the bytes stored, or what
it read as before. -/
theorem State.readByte_storeBytes {s : State} (hm : s.mem.wf s.cfg.font) {a : Nat}
    {bs : List Byte} (h : bs = [] ∨ a + bs.length ≤ memSize) (c : Nat) :
    (s.storeBytes a bs).readByte c
      = if a ≤ c then (bs[c - a]?).getD (s.readByte c) else s.readByte c := by
  induction bs generalizing s a with
  | nil => simp [State.storeBytes]
  | cons b bs ih =>
    have h : a + (bs.length + 1) ≤ memSize := by simpa using h
    have hs := State.storeByte_wf hm (show a < memSize by omega) b
    rw [State.storeBytes, ih (s := s.storeByte a b) hs (.inr (by omega)),
      State.readByte_storeByte hm]
    rcases Nat.lt_trichotomy c a with hc | hc | hc
    · rw [if_neg (by omega), if_neg (by omega), if_neg (by omega)]
    · subst hc; simp
    · obtain ⟨k, rfl⟩ : ∃ k, c = a + 1 + k := ⟨c - (a + 1), by omega⟩
      rw [if_pos (by omega), if_neg (by omega), if_pos (by omega)]
      have e : a + 1 + k - a = k + 1 := by omega
      simp [e]

/-- Bytes outside the stored range are as before. -/
theorem State.readByte_storeBytes_outside {s : State} (hm : s.mem.wf s.cfg.font) {a : Nat}
    {bs : List Byte} (h : bs = [] ∨ a + bs.length ≤ memSize) {c : Nat}
    (hc : c < a ∨ a + bs.length ≤ c) : (s.storeBytes a bs).readByte c = s.readByte c := by
  rw [State.readByte_storeBytes hm h]
  split
  · rw [List.getElem?_eq_none (by omega)]; rfl
  · rfl

/-- The bytes inside the stored range are the bytes stored. -/
theorem State.readByte_storeBytes_inside {s : State} (hm : s.mem.wf s.cfg.font) {a : Nat}
    {bs : List Byte} (h : a + bs.length ≤ memSize) {k : Nat} (hk : k < bs.length) :
    (s.storeBytes a bs).readByte (a + k) = bs[k] := by
  rw [State.readByte_storeBytes hm (.inr h), if_pos (by omega)]
  simp [hk]

theorem State.length_loadBytes (s : State) (a n : Nat) : (s.loadBytes a n).length = n := by
  simp [State.loadBytes]

theorem State.getElem_loadBytes (s : State) (a n k : Nat) (h : k < (s.loadBytes a n).length) :
    (s.loadBytes a n)[k] = s.readByte (a + k) := by
  simp [State.loadBytes]

end Sys2Proof.Machine
end

