-- ==== Sys2Proof/Laws/Display.lean ====
section
/-! SUPPORT. The drawing loops (spec/44_display.md R101) say which cells they flip and when they
report a collision: no cell is visited twice, so the order of the loops does not show. -/

namespace Sys2Proof.Machine

/-! ### One cell -/

theorem Gfx.cell_flip (g : Gfx) (r r' : Fin 32) (c c' : Fin 64) :
    Gfx.cell (Gfx.flip g r c) r' c' = (Gfx.cell g r' c' ^^ decide ((r', c') = (r, c))) := by
  simp only [Gfx.cell, Gfx.flip, Fin.getElem_fin, Vector.getElem_set, Prod.mk.injEq]
  by_cases hr : r.val = r'.val
  · obtain rfl : r = r' := Fin.ext hr
    by_cases hc : c.val = c'.val
    · obtain rfl : c = c' := Fin.ext hc
      simp
    · have hc' : ¬ c' = c := fun e => hc (congrArg Fin.val e.symm)
      simp [hc, hc']
  · have hr' : ¬ r' = r := fun e => hr (congrArg Fin.val e.symm)
    simp [hr, hr']

@[simp] theorem Gfx.cell_blank (r : Fin 32) (c : Fin 64) : Gfx.cell blankGfx r c = false := by
  simp [Gfx.cell, blankGfx]

/-- Two displays with the same cells are the same. -/
theorem Gfx.ext_cell {g h : Gfx} (e : ∀ r c, Gfx.cell g r c = Gfx.cell h r c) : g = h := by
  apply Vector.ext; intro r hr
  apply Vector.ext; intro c hc
  exact e ⟨r, hr⟩ ⟨c, hc⟩

/-! ### A list of cells, each visited once -/

/-- Plotting a list of distinct cells flips exactly those, and reports a collision exactly when one
of them was on before. -/
theorem foldl_plot (l : List (Fin 32 × Fin 64)) (hl : l.Nodup) (p : Gfx × Bool) :
    (∀ r c, Gfx.cell (l.foldl (fun q rc => plot rc.1 rc.2 q) p).1 r c
        = (Gfx.cell p.1 r c ^^ decide ((r, c) ∈ l))) ∧
      (l.foldl (fun q rc => plot rc.1 rc.2 q) p).2
        = (p.2 || l.any (fun rc => Gfx.cell p.1 rc.1 rc.2)) := by
  induction l generalizing p with
  | nil => simp
  | cons rc l ih =>
    obtain ⟨hnot, hl⟩ := List.nodup_cons.1 hl
    obtain ⟨hcell, hflag⟩ := ih hl (plot rc.1 rc.2 p)
    refine ⟨fun r c => ?_, ?_⟩
    · rw [List.foldl_cons, hcell]
      simp only [plot, Gfx.cell_flip, List.mem_cons]
      by_cases h : (r, c) = rc
      · subst h; simp [hnot]
      · simp [h]
    · rw [List.foldl_cons, hflag]
      have same : l.any (fun x => Gfx.cell (plot rc.1 rc.2 p).1 x.1 x.2)
          = l.any (fun x => Gfx.cell p.1 x.1 x.2) := by
        rw [Bool.eq_iff_iff, List.any_eq_true, List.any_eq_true]
        refine exists_congr fun x => and_congr_right fun hx => ?_
        have hx' : (x.1, x.2) ≠ rc := fun e => hnot (e ▸ hx)
        simp [plot, Gfx.cell_flip, hx']
      rw [same]
      simp [plot, Bool.or_assoc]

/-! ### The cells a sprite touches -/

/-- The cells of one sprite row: sprite column c where bit 7 - c is 1 (R102, R103). -/
def rowCells (cx : Nat) (row : Fin 32) (b : Byte) : List (Fin 32 × Fin 64) :=
  ((List.range 8).filter (fun c => b.getLsbD (7 - c))).map (fun c => (row, colOf cx c))

/-- The cells of the sprite rows from sprite row r on. -/
def spriteCells (cx cy : Nat) : Nat → List Byte → List (Fin 32 × Fin 64)
  | _, [] => []
  | r, b :: bs => rowCells cx (rowOf cy r) b ++ spriteCells cx cy (r + 1) bs

theorem drawRow_eq (cx : Nat) (row : Fin 32) (b : Byte) (p : Gfx × Bool) :
    drawRow cx row b p = (rowCells cx row b).foldl (fun q rc => plot rc.1 rc.2 q) p := by
  simp only [drawRow, rowCells, List.foldl_map, List.foldl_filter]

theorem drawRows_eq (cx cy r : Nat) (bs : List Byte) (p : Gfx × Bool) :
    drawRows cx cy r bs p = (spriteCells cx cy r bs).foldl (fun q rc => plot rc.1 rc.2 q) p := by
  induction bs generalizing r p with
  | nil => rfl
  | cons b bs ih => rw [drawRows, ih, spriteCells, List.foldl_append, drawRow_eq]

theorem mem_rowCells {cx : Nat} {row : Fin 32} {b : Byte} {rc : Fin 32 × Fin 64} :
    rc ∈ rowCells cx row b ↔ ∃ c < 8, rc = (row, colOf cx c) ∧ b.getLsbD (7 - c) = true := by
  simp only [rowCells, List.mem_map, List.mem_filter, List.mem_range]
  exact ⟨fun ⟨c, ⟨hc, hb⟩, e⟩ => ⟨c, hc, e.symm, hb⟩, fun ⟨c, hc, e, hb⟩ => ⟨c, ⟨hc, hb⟩, e.symm⟩⟩

theorem mem_spriteCells {cx cy r : Nat} {bs : List Byte} {rc : Fin 32 × Fin 64} :
    rc ∈ spriteCells cx cy r bs ↔ ∃ k, ∃ h : k < bs.length, ∃ c < 8,
      rc = (rowOf cy (r + k), colOf cx c) ∧ bs[k].getLsbD (7 - c) = true := by
  induction bs generalizing r with
  | nil => simp [spriteCells]
  | cons b bs ih =>
    rw [spriteCells, List.mem_append, mem_rowCells, ih]
    constructor
    · rintro (⟨c, hc, e, hb⟩ | ⟨k, hk, c, hc, e, hb⟩)
      · exact ⟨0, by simp, c, hc, e, hb⟩
      · exact ⟨k + 1, by simpa using hk, c, hc, by rw [e, Nat.add_assoc, Nat.add_comm 1 k],
          by simpa using hb⟩
    · rintro ⟨k, hk, c, hc, e, hb⟩
      cases k with
      | zero => exact .inl ⟨c, hc, e, hb⟩
      | succ k =>
        exact .inr ⟨k, by simpa using hk, c, hc, by rw [e, Nat.add_assoc, Nat.add_comm 1 k],
          by simpa using hb⟩

/-- Eight consecutive columns are eight columns, also across the edge (R101). -/
theorem colOf_inj {cx c d : Nat} (hc : c < 8) (hd : d < 8) (e : colOf cx c = colOf cx d) :
    c = d := by
  have e : (cx + c) % 64 = (cx + d) % 64 := congrArg Fin.val e
  omega

/-- At most 32 consecutive rows are as many rows, also across the edge (R101). -/
theorem rowOf_inj {cy r q : Nat} (h : r < q + 32) (h' : q < r + 32) (e : rowOf cy r = rowOf cy q) :
    r = q := by
  have e : (cy + r) % 32 = (cy + q) % 32 := congrArg Fin.val e
  omega

theorem nodup_rowCells (cx : Nat) (row : Fin 32) (b : Byte) : (rowCells cx row b).Nodup := by
  refine List.Nodup.map_on ?_ (List.Nodup.filter _ List.nodup_range)
  intro c hc d hd e
  have hc := List.mem_range.1 (List.mem_filter.1 hc).1
  have hd := List.mem_range.1 (List.mem_filter.1 hd).1
  exact colOf_inj hc hd (congrArg Prod.snd e)

/-- No cell is visited twice (R101). -/
theorem nodup_spriteCells (cx cy r : Nat) (bs : List Byte) (h : bs.length ≤ 32) :
    (spriteCells cx cy r bs).Nodup := by
  induction bs generalizing r with
  | nil => exact List.nodup_nil
  | cons b bs ih =>
    have h : bs.length + 1 ≤ 32 := by simpa using h
    refine List.Nodup.append (nodup_rowCells _ _ _) (ih (r + 1) (by omega)) ?_
    intro rc h₁ h₂
    obtain ⟨c, -, rfl, -⟩ := mem_rowCells.1 h₁
    obtain ⟨k, hk, d, -, e, -⟩ := mem_spriteCells.1 h₂
    have := rowOf_inj (by omega) (by omega) (congrArg Prod.fst e)
    omega

/-- Everything the drawing loops can do, for a sprite of at most 32 rows: the cells named by
`spriteCells` are flipped, and the collision flag is set exactly when one of them was on. -/
theorem drawRows_spec (cx cy r : Nat) (bs : List Byte) (h : bs.length ≤ 32) (p : Gfx × Bool) :
    (∀ row col, Gfx.cell (drawRows cx cy r bs p).1 row col
        = (Gfx.cell p.1 row col ^^ decide ((row, col) ∈ spriteCells cx cy r bs))) ∧
      (drawRows cx cy r bs p).2
        = (p.2 || (spriteCells cx cy r bs).any (fun rc => Gfx.cell p.1 rc.1 rc.2)) := by
  rw [drawRows_eq]
  exact foldl_plot _ (nodup_spriteCells cx cy r bs h) p

end Sys2Proof.Machine
end

