-- ==== Sys2Proof/Laws/Ops.lean ====
section
/-! SUPPORT. For each shared operation, one lemma that says everything it can do. -/

namespace Sys2Proof.Machine

/-! ### How an instruction ends -/

@[simp] theorem nextInstr_eq (s : State) : nextInstr s = .next (s.setPc (s.pc + 2)) := rfl

@[simp] theorem jumpTo_eq (a : Word) (s : State) : jumpTo a s = .next (s.setPc a) := rfl

@[simp] theorem raise_eq (f : Fault) : raise f = .fault f := rfl

/-- A skip always completes, and PC is all it writes. -/
theorem skipIf_eq (c : Bool) (s : State) :
    skipIf c s = .next (s.setPc (s.pc + if c then 4 else 2)) := by
  cases c <;> rfl

theorem writeV_eq (x : Nibble) (b : Byte) (s : State) :
    writeV x b s = .next ((s.setV x b).setPc (s.pc + 2)) := rfl

/-- A flag instruction always completes; the registers it reads for the result are those after the
flag was written (D2). -/
theorem flagThenResult_eq (flag : Byte → Byte → Bool) (result : Byte → Byte → Byte) (x y : Nibble)
    (s : State) :
    flagThenResult flag result x y s
      = .next (((s.setV vf (flagByte (flag (s.v x) (s.v y)))).setV x
          (result (if x = vf then flagByte (flag (s.v x) (s.v y)) else s.v x)
            (if y = vf then flagByte (flag (s.v x) (s.v y)) else s.v y))).setPc (s.pc + 2)) := by
  simp [flagThenResult, writeV_eq]

/-! ### The bounds check -/

/-- An access inside the memory goes on. -/
theorem inBounds_of_le {a n : Nat} (k : Result) (h : n = 0 ∨ a + n ≤ memSize) :
    inBounds a n k = k := if_pos h

/-- An access that would leave the memory raises, and does nothing else (R36). -/
theorem inBounds_of_gt {a n : Nat} (k : Result) (hn : n ≠ 0) (h : memSize < a + n) :
    inBounds a n k = .fault (.memoryOutOfBounds (max a memSize)) :=
  if_neg (by omega)

/-- A checked access answers a next state only inside the memory, and then it is the access's. -/
theorem inBounds_next {a n : Nat} {k : Result} {t : State} (h : inBounds a n k = .next t) :
    (n = 0 ∨ a + n ≤ memSize) ∧ k = .next t := by
  unfold inBounds at h
  split at h
  · exact ⟨‹_›, h⟩
  · cases h

/-! ### A register as a key number -/

/-- A key number up to 15 names its key, whatever the policy. -/
theorem withKey_of_lt {s : State} {v : Byte} (k : Bool → Result) (h : v.toNat < 16) :
    withKey s v k = k s.keys[v.toNat] := by
  unfold withKey
  split
  · rw [dif_pos h]
  · simp only [Nat.mod_eq_of_lt h]

/-- A key number above 15 raises under `KEY_INDEX_POLICY` = `fault` (R105). -/
theorem withKey_of_ge {s : State} {v : Byte} (k : Bool → Result) (hp : s.cfg.keyIndex = .fault)
    (h : 16 ≤ v.toNat) : withKey s v k = .fault (.invalidKeyIndex v) := by
  unfold withKey
  simp [hp, Nat.not_lt.2 h]

/-- Under `KEY_INDEX_POLICY` = `mask4` the low four bits are the key number (R105). -/
theorem withKey_mask4 {s : State} {v : Byte} (k : Bool → Result) (hp : s.cfg.keyIndex = .mask4) :
    withKey s v k = k (s.keys[v.toNat % 16]'(Nat.mod_lt _ (by decide))) := by
  unfold withKey
  simp [hp]

/-- A key instruction answers a next state only as it goes on with the state of some key. -/
theorem withKey_next {s t : State} {v : Byte} {k : Bool → Result} (h : withKey s v k = .next t) :
    ∃ down, k down = .next t := by
  unfold withKey at h
  split at h
  · split at h
    · exact ⟨_, h⟩
    · cases h
  · exact ⟨_, h⟩

/-! ### Several registers -/

/-- What a register holds after bytes are written to consecutive registers. -/
theorem getElem_fillRegs (r : Vector Byte 16) (k : Nat) (bs : List Byte) (j : Nat) (hj : j < 16) :
    (fillRegs r k bs)[j] = if k ≤ j then (bs[j - k]?).getD r[j] else r[j] := by
  induction bs generalizing r k with
  | nil => simp [fillRegs]
  | cons b bs ih =>
    rw [fillRegs, ih, Vector.getElem_setIfInBounds]
    rcases Nat.lt_trichotomy j k with h | h | h
    · rw [if_neg (by omega), if_neg (by omega), if_neg (by omega)]
    · subst h; simp
    · have e : j - k = (j - (k + 1)) + 1 := by omega
      rw [if_pos (by omega), if_neg (by omega), if_pos (by omega), e, List.getElem?_cons_succ]

theorem State.length_regsUpTo (s : State) (x : Nibble) :
    (s.regsUpTo x).length = x.toNat + 1 := by
  have := x.isLt
  simp only [State.regsUpTo, List.length_take, Vector.length_toList]
  omega

/-- Byte number k that `Fx55` stores is V[k]. -/
theorem State.getElem_regsUpTo (s : State) (x k : Nibble) (h : k.toNat < (s.regsUpTo x).length) :
    (s.regsUpTo x)[k.toNat] = s.v k := by
  simp [State.regsUpTo, State.v]

/-- What V[k] holds after `Fx65` has loaded V[0] to V[x] from address a on. -/
theorem State.v_fillRegs_loadBytes (s : State) (a : Nat) (x k : Nibble) :
    (s.setRegs (fillRegs s.regs 0 (s.loadBytes a (x.toNat + 1)))).v k
      = if k.toNat ≤ x.toNat then s.readByte (a + k.toNat) else s.v k := by
  simp only [State.v, State.setRegs_regs, getElem_fillRegs, Nat.zero_le, if_true, Nat.sub_zero]
  split
  · rw [List.getElem?_eq_getElem (by rw [State.length_loadBytes]; omega),
      State.getElem_loadBytes]; rfl
  · rw [List.getElem?_eq_none (by rw [State.length_loadBytes]; omega)]; rfl

/-! ### The return stack -/

@[simp] theorem State.push_sp (s : State) (a : Word) : (s.push a).sp = s.sp + 1 := rfl

@[simp] theorem State.push_stack (s : State) (a : Word) :
    (s.push a).stack = s.stack.setIfInBounds s.sp.toNat a := rfl

/-- Everything a push can do: it writes the stack and SP. -/
theorem State.push_eq (s : State) (a : Word) :
    s.push a = (s.setStack (s.stack.setIfInBounds s.sp.toNat a)).setSp (s.sp + 1) := rfl

@[simp] theorem State.drop_sp (s : State) : s.drop.sp = s.sp - 1 := rfl

@[simp] theorem State.drop_stack (s : State) : s.drop.stack = s.stack := rfl

/-- SP after one is taken off, as a number. -/
theorem State.drop_sp_toNat {s : State} (h : s.sp ≠ 0) : s.drop.sp.toNat = s.sp.toNat - 1 := by
  have h0 : s.sp.toNat ≠ 0 := fun e => h (BitVec.eq_of_toNat_eq e)
  have := s.sp.isLt
  have e : (1 : Byte).toNat = 1 := rfl
  simp only [State.drop_sp, BitVec.toNat_sub, e]
  omega

/-- What a return pops: the entry below SP (R65). -/
theorem State.drop_stackAtSp {s : State} {k : Nat} (hk : k < 16) (h : s.sp.toNat = k + 1) :
    s.drop.stackAtSp = s.stack[k] := by
  have h0 : s.sp ≠ 0 := fun e => by simp [e] at h
  have e : s.drop.sp.toNat = k := by rw [State.drop_sp_toNat h0, h]; rfl
  simp only [State.stackAtSp, e, State.drop_stack, Vector.getElem?_eq_getElem hk, Option.getD_some]

/-- With SP above the stack a return reads the free value of that SP (U16). -/
theorem State.drop_stackAtSp_above {s : State} (h : 16 < s.sp.toNat) :
    s.drop.stackAtSp = Config.beyondStack s.drop.sp := by
  have h0 : s.sp ≠ 0 := fun e => by simp [e] at h
  have e : 16 ≤ s.drop.sp.toNat := by rw [State.drop_sp_toNat h0]; omega
  simp only [State.stackAtSp, State.drop_stack, Vector.getElem?_eq_none e, Option.getD_none]

/-! ### The index register and the key scan -/

/-- `Fx1E`'s report changes nothing but VF. -/
theorem reportOverflow_eq (sum : Nat) (s : State) :
    reportOverflow sum s = s.setV vf
      (match s.cfg.fx1eVf with
        | .writesOverflow => flagByte (exceeds12 sum)
        | .unchanged => s.v vf) := by
  unfold reportOverflow
  cases s.cfg.fx1eVf
  · rfl
  · have h : s.regs.set vf.toNat (s.v vf) vf.isLt = s.regs := by
      simp [State.v]
    exact congrArg s.setRegs h.symm

/-- The key a scan finds is pressed and none before it is (R107). -/
theorem State.firstKey_some {s : State} {k : Fin 16} (h : s.firstKey = some k) :
    s.keys[k] = true ∧ ∀ j < k, s.keys[j] = false := by
  obtain ⟨hk, l, hl, e, hlt⟩ := List.find?_eq_some_iff_getElem.1 h
  refine ⟨hk, fun j hj => ?_⟩
  rw [List.getElem_finRange] at e
  have hkl : k.val = l := by rw [← e]; rfl
  have := hlt j.val (by omega)
  simpa using this

/-- A scan that finds none: no key is pressed (R107). -/
theorem State.firstKey_none {s : State} (h : s.firstKey = none) (k : Fin 16) :
    s.keys[k] = false := by
  have := List.find?_eq_none.1 h k (List.mem_finRange k)
  simpa using this

end Sys2Proof.Machine
end

