-- ==== Sys2Proof/Laws/PerInstr.lean ====
section
/-! SUPPORT. One lemma per instruction of the family named in LAWS.json: the word of the instruction
is selected by its own row of the opcode map (spec/30_encoding.md R51, R52). -/

namespace Sys2Proof.Laws

/-! ### The literal digits of a word of each format -/

section Masks

variable (op x y n : Nibble) (nn : Byte) (nnn : Addr12)

theorem and_append {a b : Nat} (u u' : BitVec a) (v v' : BitVec b) :
    (u ++ v) &&& (u' ++ v') = (u &&& u') ++ (v &&& v') := by
  apply BitVec.eq_of_getElem_eq; intro k hk
  simp only [BitVec.getElem_and, BitVec.getElem_append]
  split <;> simp [*]

theorem and_ones_nibble (u : Nibble) : u &&& 0xF#4 = u := BitVec.and_allOnes (x := u)

theorem and_ones_byte (u : Byte) : u &&& 0xFF#8 = u := BitVec.and_allOnes (x := u)

/-- The literal digit of format NNN (R49). -/
theorem mask_wordNnn : wordNnn op nnn &&& 0xF000 = wordNnn op 0 :=
  (and_append op 0xF#4 nnn 0x000#12).trans (by rw [and_ones_nibble, BitVec.and_zero]; rfl)

/-- The literal digit of format XNN (R49). -/
theorem mask_wordXnn : wordXnn op x nn &&& 0xF000 = wordXnn op 0 0 := mask_wordNnn op (x ++ nn)

/-- The literal digits of format XKK (R49). -/
theorem mask_wordXkk : wordXnn op x nn &&& 0xF0FF = wordXnn op 0 nn :=
  (and_append op 0xF#4 (x ++ nn) (0x0#4 ++ 0xFF#8)).trans
    (by rw [and_append, and_ones_nibble, and_ones_byte, BitVec.and_zero]; rfl)

/-- The literal digit of `Dxyn`. -/
theorem mask_wordXyn : wordXyn op x y n &&& 0xF000 = wordXyn op 0 0 0 :=
  mask_wordNnn op (x ++ (y ++ n))

/-- The two literal digits of format XYN (R49). -/
theorem mask_wordXy0 : wordXyn op x y n &&& 0xF00F = wordXyn op 0 0 n :=
  (and_append op 0xF#4 (x ++ (y ++ n)) (0x0#4 ++ (0x0#4 ++ 0xF#4))).trans
    (by rw [and_append, and_append, and_ones_nibble, and_ones_nibble, BitVec.and_zero,
          BitVec.and_zero]; rfl)

end Masks

namespace Encoding

/-- The word of the instruction is selected by the row of the opcode map that bears its name. -/
def Statement (i : Instr) : Prop :=
  ∃ r ∈ opcodeMap, r.mnemonic = i.mnemonic ∧ r.selects (encode i) = true

/-- The row of a name selects a word whose literal digits are the row's. -/
theorem of_row {i : Instr} (r : OpcodeRow) (hr : r ∈ opcodeMap) (hn : r.mnemonic = i.mnemonic)
    (h : encode i &&& r.mask = r.value) : Statement i :=
  ⟨r, hr, hn, by simp [OpcodeRow.selects, h]⟩

theorem cls : Statement (.cls) :=
  of_row ⟨"CLS", 0xFFFF, 0x00E0⟩ (by decide) rfl (by decide)

theorem ret : Statement (.ret) :=
  of_row ⟨"RET", 0xFFFF, 0x00EE⟩ (by decide) rfl (by decide)

theorem jp (nnn : Addr12) : Statement (.jp nnn) :=
  of_row ⟨"JP", 0xF000, 0x1000⟩ (by decide) rfl (mask_wordNnn _ nnn)

theorem call (nnn : Addr12) : Statement (.call nnn) :=
  of_row ⟨"CALL", 0xF000, 0x2000⟩ (by decide) rfl (mask_wordNnn _ nnn)

theorem seImm (x : Nibble) (nn : Byte) : Statement (.seImm x nn) :=
  of_row ⟨"SE_imm", 0xF000, 0x3000⟩ (by decide) rfl (mask_wordXnn _ x nn)

theorem sneImm (x : Nibble) (nn : Byte) : Statement (.sneImm x nn) :=
  of_row ⟨"SNE_imm", 0xF000, 0x4000⟩ (by decide) rfl (mask_wordXnn _ x nn)

theorem seReg (x y : Nibble) : Statement (.seReg x y) :=
  of_row ⟨"SE_reg", 0xF00F, 0x5000⟩ (by decide) rfl (mask_wordXy0 _ x y _)

theorem ldImm (x : Nibble) (nn : Byte) : Statement (.ldImm x nn) :=
  of_row ⟨"LD_imm", 0xF000, 0x6000⟩ (by decide) rfl (mask_wordXnn _ x nn)

theorem addImm (x : Nibble) (nn : Byte) : Statement (.addImm x nn) :=
  of_row ⟨"ADD_imm", 0xF000, 0x7000⟩ (by decide) rfl (mask_wordXnn _ x nn)

theorem ldReg (x y : Nibble) : Statement (.ldReg x y) :=
  of_row ⟨"LD_reg", 0xF00F, 0x8000⟩ (by decide) rfl (mask_wordXy0 _ x y _)

theorem or (x y : Nibble) : Statement (.or x y) :=
  of_row ⟨"OR", 0xF00F, 0x8001⟩ (by decide) rfl (mask_wordXy0 _ x y _)

theorem and (x y : Nibble) : Statement (.and x y) :=
  of_row ⟨"AND", 0xF00F, 0x8002⟩ (by decide) rfl (mask_wordXy0 _ x y _)

theorem xor (x y : Nibble) : Statement (.xor x y) :=
  of_row ⟨"XOR", 0xF00F, 0x8003⟩ (by decide) rfl (mask_wordXy0 _ x y _)

theorem addReg (x y : Nibble) : Statement (.addReg x y) :=
  of_row ⟨"ADD_reg", 0xF00F, 0x8004⟩ (by decide) rfl (mask_wordXy0 _ x y _)

theorem sub (x y : Nibble) : Statement (.sub x y) :=
  of_row ⟨"SUB", 0xF00F, 0x8005⟩ (by decide) rfl (mask_wordXy0 _ x y _)

theorem shr (x y : Nibble) : Statement (.shr x y) :=
  of_row ⟨"SHR", 0xF00F, 0x8006⟩ (by decide) rfl (mask_wordXy0 _ x y _)

theorem subn (x y : Nibble) : Statement (.subn x y) :=
  of_row ⟨"SUBN", 0xF00F, 0x8007⟩ (by decide) rfl (mask_wordXy0 _ x y _)

theorem shl (x y : Nibble) : Statement (.shl x y) :=
  of_row ⟨"SHL", 0xF00F, 0x800E⟩ (by decide) rfl (mask_wordXy0 _ x y _)

theorem sneReg (x y : Nibble) : Statement (.sneReg x y) :=
  of_row ⟨"SNE_reg", 0xF00F, 0x9000⟩ (by decide) rfl (mask_wordXy0 _ x y _)

theorem ldI (nnn : Addr12) : Statement (.ldI nnn) :=
  of_row ⟨"LD_I", 0xF000, 0xA000⟩ (by decide) rfl (mask_wordNnn _ nnn)

theorem jpV0 (nnn : Addr12) : Statement (.jpV0 nnn) :=
  of_row ⟨"JP_V0", 0xF000, 0xB000⟩ (by decide) rfl (mask_wordNnn _ nnn)

theorem rnd (x : Nibble) (nn : Byte) : Statement (.rnd x nn) :=
  of_row ⟨"RND", 0xF000, 0xC000⟩ (by decide) rfl (mask_wordXnn _ x nn)

theorem drw (x y n : Nibble) : Statement (.drw x y n) :=
  of_row ⟨"DRW", 0xF000, 0xD000⟩ (by decide) rfl (mask_wordXyn _ x y n)

theorem skp (x : Nibble) : Statement (.skp x) :=
  of_row ⟨"SKP", 0xF0FF, 0xE09E⟩ (by decide) rfl (mask_wordXkk _ x _)

theorem sknp (x : Nibble) : Statement (.sknp x) :=
  of_row ⟨"SKNP", 0xF0FF, 0xE0A1⟩ (by decide) rfl (mask_wordXkk _ x _)

theorem ldVxDt (x : Nibble) : Statement (.ldVxDt x) :=
  of_row ⟨"LD_Vx_DT", 0xF0FF, 0xF007⟩ (by decide) rfl (mask_wordXkk _ x _)

theorem ldVxK (x : Nibble) : Statement (.ldVxK x) :=
  of_row ⟨"LD_Vx_K", 0xF0FF, 0xF00A⟩ (by decide) rfl (mask_wordXkk _ x _)

theorem ldDtVx (x : Nibble) : Statement (.ldDtVx x) :=
  of_row ⟨"LD_DT_Vx", 0xF0FF, 0xF015⟩ (by decide) rfl (mask_wordXkk _ x _)

theorem ldStVx (x : Nibble) : Statement (.ldStVx x) :=
  of_row ⟨"LD_ST_Vx", 0xF0FF, 0xF018⟩ (by decide) rfl (mask_wordXkk _ x _)

theorem addI (x : Nibble) : Statement (.addI x) :=
  of_row ⟨"ADD_I", 0xF0FF, 0xF01E⟩ (by decide) rfl (mask_wordXkk _ x _)

theorem ldF (x : Nibble) : Statement (.ldF x) :=
  of_row ⟨"LD_F", 0xF0FF, 0xF029⟩ (by decide) rfl (mask_wordXkk _ x _)

theorem ldB (x : Nibble) : Statement (.ldB x) :=
  of_row ⟨"LD_B", 0xF0FF, 0xF033⟩ (by decide) rfl (mask_wordXkk _ x _)

theorem stRegs (x : Nibble) : Statement (.stRegs x) :=
  of_row ⟨"ST_regs", 0xF0FF, 0xF055⟩ (by decide) rfl (mask_wordXkk _ x _)

theorem ldRegs (x : Nibble) : Statement (.ldRegs x) :=
  of_row ⟨"LD_regs", 0xF0FF, 0xF065⟩ (by decide) rfl (mask_wordXkk _ x _)

end Encoding

end Sys2Proof.Laws
end

