-- ==== Sys2Proof/Laws/Step.lean ====
section
/-! SUPPORT. The fetch, the step and the state a cycle leaves: one lemma for each way they can go. -/

namespace Sys2Proof.Machine

/-! ### The fetch (R45) -/

theorem fetchWord_of_le {s : State} (h : s.pc.toNat ≤ 0x0FFE) :
    fetchWord s
      = .ok (wordOfBytes (s.readByte s.pc.toNat) (s.readByte (s.pc.toNat + 1))) :=
  if_pos (by have := memSize_eq; omega)

theorem fetchWord_of_gt {s : State} (h : 0x0FFF ≤ s.pc.toNat) :
    fetchWord s = .error (.memoryOutOfBounds (max s.pc.toNat memSize)) :=
  if_neg (by have := memSize_eq; omega)

/-- A fetch that succeeds had both bytes inside the memory and read them big-endian (R30). -/
theorem fetchWord_ok {s : State} {w : Word} (h : fetchWord s = .ok w) :
    s.pc.toNat ≤ 0x0FFE ∧
      w.toNat = (s.readByte s.pc.toNat).toNat * 256 + (s.readByte (s.pc.toNat + 1)).toNat := by
  rcases Nat.lt_or_ge 0x0FFE s.pc.toNat with hp | hp
  · rw [fetchWord_of_gt hp] at h; cases h
  · rw [fetchWord_of_le hp] at h; cases h
    exact ⟨hp, toNat_wordOfBytes _ _⟩

@[simp] theorem fetchWord_setIr (s : State) (w : Word) : fetchWord (s.setIr w) = fetchWord s := rfl

/-- A word placed at PC is what the next fetch reads. -/
theorem fetchWord_placeAtPc {s : State} (hm : s.mem.wf s.cfg.font) (h : s.pc.toNat ≤ 0x0FFE)
    (w : Word) : fetchWord (s.placeAtPc w) = .ok w := by
  have hb : s.pc.toNat + [highByte w, lowByte w].length ≤ memSize := by
    have := memSize_eq
    simp only [List.length_cons, List.length_nil]; omega
  have h0 := State.readByte_storeBytes_inside hm hb (k := 0) (by simp)
  have h1 := State.readByte_storeBytes_inside hm hb (k := 1) (by simp)
  have hp : (s.placeAtPc w).pc = s.pc := State.storeBytes_pc _ _ _
  rw [fetchWord_of_le (by rw [hp]; exact h), hp]
  exact congrArg _ ((congrArg₂ wordOfBytes h0 h1).trans (wordOfBytes_bytes w))

/-- `withFetchWord` does what its name says, in every state. -/
theorem fetchWord_withFetchWord {s : State} (hm : s.mem.wf s.cfg.font) (nbits w : Nat) :
    fetchWord (s.withFetchWord nbits w) = .ok (tableWord nbits w) := by
  have hms := memSize_eq
  simp only [State.withFetchWord, State.withFetchablePc]
  split
  · exact fetchWord_placeAtPc hm (by omega) _
  · exact fetchWord_placeAtPc (s := s.setPc resetPc) hm (show resetPc.toNat ≤ 0x0FFE by decide) _

/-! ### The step (R46) -/

theorem step_of_decode {s : State} {w : Word} {i : Instr} (hf : fetchWord s = .ok w)
    (hd : decodeWord s.cfg.annn w = some i) : step s = exec i (s.setIr w) := by
  simp only [step, hf, hd]

theorem step_of_unrecognized {s : State} {w : Word} (hf : fetchWord s = .ok w)
    (hd : decodeWord s.cfg.annn w = none) : step s = .fault (.unknownOpcode w) := by
  simp only [step, hf, hd, raise_eq]

theorem step_of_fetch_error {s : State} {f : Fault} (hf : fetchWord s = .error f) :
    step s = .fault f := by
  simp only [step, hf, raise_eq]

/-- Everything a step that answers a next state can have done: it fetched a word, the word decoded,
and the instruction's meaning gave that state. -/
theorem step_next {s t : State} (h : step s = .next t) :
    ∃ w i, fetchWord s = .ok w ∧ decodeWord s.cfg.annn w = some i ∧
      exec i (s.setIr w) = .next t := by
  cases hf : fetchWord s with
  | error f => rw [step_of_fetch_error hf] at h; cases h
  | ok w =>
    cases hd : decodeWord s.cfg.annn w with
    | none => rw [step_of_unrecognized hf hd] at h; cases h
    | some i => exact ⟨w, i, rfl, hd, step_of_decode hf hd ▸ h⟩

/-- The latch is no input of a cycle whose fetch succeeds: the fetch writes it (R18). -/
theorem step_setIr {s : State} {u : Word} (hf : fetchWord s = .ok u) (w : Word) :
    step (s.setIr w) = step s := by
  have hf' : fetchWord (s.setIr w) = .ok u := hf
  cases hd : decodeWord s.cfg.annn u with
  | none => rw [step_of_unrecognized hf hd, step_of_unrecognized (s := s.setIr w) hf' hd]
  | some i =>
    rw [step_of_decode hf hd, step_of_decode (s := s.setIr w) hf' hd, State.setIr_setIr]

/-! ### No meaning refuses -/

theorem inBounds_ne_refused {a n : Nat} {k : Result} {r : Refusal} (h : k ≠ .refused r) :
    inBounds a n k ≠ .refused r := by
  unfold inBounds
  split
  · exact h
  · exact nofun

theorem withKey_ne_refused {s : State} {v : Byte} {k : Bool → Result} {r : Refusal}
    (h : ∀ down, k down ≠ .refused r) : withKey s v k ≠ .refused r := by
  unfold withKey
  split
  · split
    · exact h _
    · exact nofun
  · exact h _

/-- Every instruction is modelled: no meaning answers with a refusal. -/
theorem exec_ne_refused (i : Instr) (s : State) (r : Refusal) : exec i s ≠ .refused r := by
  cases i
  case ret =>
    simp only [exec, execRet]; split <;> exact nofun
  case call nnn => simp only [exec, execCall]; split <;> exact nofun
  case drw x y n => exact inBounds_ne_refused nofun
  case ldB x => exact inBounds_ne_refused nofun
  case stRegs x => exact inBounds_ne_refused nofun
  case ldRegs x => exact inBounds_ne_refused nofun
  case skp x =>
    simp only [exec, execSkp, skipIf_eq]
    exact withKey_ne_refused fun _ => nofun
  case sknp x =>
    simp only [exec, execSknp, skipIf_eq]
    exact withKey_ne_refused fun _ => nofun
  case ldVxK x => simp only [exec, execLdVxK]; split <;> exact nofun
  all_goals exact nofun

theorem step_ne_refused (s : State) (r : Refusal) : step s ≠ .refused r := by
  cases hf : fetchWord s with
  | error f => rw [step_of_fetch_error hf]; exact nofun
  | ok w =>
    cases hd : decodeWord s.cfg.annn w with
    | none => rw [step_of_unrecognized hf hd]; exact nofun
    | some i => rw [step_of_decode hf hd]; exact exec_ne_refused i _ r

/-! ### The state a cycle leaves (R121) -/

theorem afterCycle_of_next {s t : State} (h : step s = .next t) : afterCycle s = t := by
  simp only [afterCycle, h]

/-- After an error whose fetch succeeded, IR holds the word and nothing else has changed. -/
theorem afterCycle_of_fault {s : State} {f : Fault} {w : Word} (h : step s = .fault f)
    (hf : fetchWord s = .ok w) : afterCycle s = s.setIr w := by
  simp only [afterCycle, h, hf]

/-- After a fetch that failed nothing has changed. -/
theorem afterCycle_of_fetch_error {s : State} {f : Fault} (hf : fetchWord s = .error f) :
    afterCycle s = s := by
  simp only [afterCycle, step_of_fetch_error hf, hf]

end Sys2Proof.Machine
end

