-- ==== Sys2Proof/Tests/Slice0.lean ====
section
/-! SUPPORT. The model's own tests. Expected results come from spec/95_test_vectors.md (V, T, H and E
numbers) or are worked out from the rule named. Every witness theorem shows that the hypotheses of
the obligation it is named after can be met. -/

namespace Sys2Proof.Tests

open Machine

set_option maxRecDepth 10000

/-! ### Helpers -/

/-- The base state of the vectors: after `Init` and `ClearDirty`. -/
def base : State := State.reset.clearDirty

/-- The base state with some registers set. -/
def withRegs (l : List (Nibble × Byte)) : State := l.foldl (fun s p => s.setV p.1 p.2) base

/-- The cycle of this word at PC ends with `Ok` in a state the check accepts. -/
def runs (w : Nat) (s : State) (good : State → Bool) : Bool :=
  match step (s.withFetchWord 16 w) with
  | .next t => good t
  | _ => false

/-- The cycle of this word at PC ends with this error. -/
def stops (w : Nat) (s : State) (f : Fault) : Bool :=
  match step (s.withFetchWord 16 w) with
  | .fault g => g == f
  | _ => false

/-- A display with these cells on, as (row, column). -/
def cellsOn (l : List (Fin 32 × Fin 64)) : Gfx := l.foldl (fun g p => Gfx.flip g p.1 p.2) blankGfx

/-- A state with a different setting of the parameters. -/
def underWrap : State := { base with cfg := { defaultConfig with fx1eWrap := .mod65536 } }
def underUnchanged : State := { base with cfg := { defaultConfig with fx1eVf := .unchanged } }
def underMask4 : State := { base with cfg := { defaultConfig with keyIndex := .mask4 } }
def underUnknown : State := { base with cfg := { defaultConfig with annn := .unknownOpcode } }

/-! ### Well-formedness: the one ill-formed term (R60) -/

theorem test_wellFormed_refuses_ldI : (Instr.ldI 0x2F0).wellFormed .unknownOpcode = false := by
  decide

theorem test_wellFormed_accepts_ldI : (Instr.ldI 0x2F0).wellFormed .loadIndex = true := by decide

theorem test_wellFormed_accepts_jp : (Instr.jp 0xFFF).wellFormed .unknownOpcode = true := by decide

/-! ### Decoding: a word of every row, written from the patterns of R52 -/

theorem test_decode_control :
    decodeTableWord 16 0x00EE = some .ret ∧ decodeTableWord 16 0x1ABC = some (.jp 0xABC) ∧
    decodeTableWord 16 0x2ABC = some (.call 0xABC) ∧
    decodeTableWord 16 0xBABC = some (.jpV0 0xABC) := by decide

theorem test_decode_skips :
    decodeTableWord 16 0x3A2B = some (.seImm 0xA 0x2B) ∧
    decodeTableWord 16 0x4A2B = some (.sneImm 0xA 0x2B) ∧
    decodeTableWord 16 0x5AB0 = some (.seReg 0xA 0xB) ∧
    decodeTableWord 16 0x9AB0 = some (.sneReg 0xA 0xB) := by decide

theorem test_decode_loads :
    decodeTableWord 16 0x6A2B = some (.ldImm 0xA 0x2B) ∧
    decodeTableWord 16 0x7A2B = some (.addImm 0xA 0x2B) ∧
    decodeTableWord 16 0xCA2B = some (.rnd 0xA 0x2B) := by decide

theorem test_decode_group8 :
    decodeTableWord 16 0x8AB0 = some (.ldReg 0xA 0xB) ∧
    decodeTableWord 16 0x8AB1 = some (.or 0xA 0xB) ∧
    decodeTableWord 16 0x8AB2 = some (.and 0xA 0xB) ∧
    decodeTableWord 16 0x8AB3 = some (.xor 0xA 0xB) ∧
    decodeTableWord 16 0x8AB4 = some (.addReg 0xA 0xB) ∧
    decodeTableWord 16 0x8AB5 = some (.sub 0xA 0xB) ∧
    decodeTableWord 16 0x8AB6 = some (.shr 0xA 0xB) ∧
    decodeTableWord 16 0x8AB7 = some (.subn 0xA 0xB) ∧
    decodeTableWord 16 0x8ABE = some (.shl 0xA 0xB) := by decide

theorem test_decode_index_and_memory :
    decodeTableWord 16 0xAABC = some (.ldI 0xABC) ∧ decodeTableWord 16 0xFA1E = some (.addI 0xA) ∧
    decodeTableWord 16 0xFA29 = some (.ldF 0xA) ∧ decodeTableWord 16 0xFA33 = some (.ldB 0xA) ∧
    decodeTableWord 16 0xFA55 = some (.stRegs 0xA) ∧
    decodeTableWord 16 0xFA65 = some (.ldRegs 0xA) := by decide

theorem test_decode_display :
    decodeTableWord 16 0x00E0 = some .cls ∧
    decodeTableWord 16 0xDABC = some (.drw 0xA 0xB 0xC) := by decide

theorem test_decode_keys_and_timers :
    decodeTableWord 16 0xEA9E = some (.skp 0xA) ∧ decodeTableWord 16 0xEAA1 = some (.sknp 0xA) ∧
    decodeTableWord 16 0xFA07 = some (.ldVxDt 0xA) ∧ decodeTableWord 16 0xFA0A = some (.ldVxK 0xA) ∧
    decodeTableWord 16 0xFA15 = some (.ldDtVx 0xA) ∧
    decodeTableWord 16 0xFA18 = some (.ldStVx 0xA) := by decide

/-- Vectors V28, V32, V91, V92 and V171 to V185: words no row matches. -/
theorem test_decode_unrecognized :
    [0x5121, 0x912F, 0x8128, 0x812F, 0xE29F, 0xF200, 0xF2FF, 0xF01F, 0x0000, 0x0001, 0x00E1, 0x00EF,
      0x01E0, 0x0FEE, 0x0230, 0xFFFF, 0xE0A0, 0x5001, 0x9008].all
      (fun w => (decodeTableWord 16 w).isNone) = true := by decide

/-- The fetch is big-endian (R30): bytes 12 34 are the word 0x1234. -/
theorem test_decode_byte_order :
    decode .loadIndex [0x12, 0x34, 0x56] = .ok (.jp 0x234, [0x56]) := rfl

/-- One byte is no instruction (R47). -/
theorem test_decode_truncated : decode .loadIndex [0x12] = .error .truncated := rfl

/-- The field table of spec/95_test_vectors.md 2.7, its first row. -/
theorem test_fields :
    fieldOp 0x8AB4 = 0x8 ∧ fieldX 0x8AB4 = 0xA ∧ fieldY 0x8AB4 = 0xB ∧ fieldN 0x8AB4 = 0x4 ∧
    fieldNn 0x8AB4 = 0xB4 ∧ fieldNnn 0x8AB4 = 0xAB4 := by decide

/-! ### Control flow -/

/-- V7. -/
theorem test_call :
    runs 0x2300 base (fun t => t.pc == 0x300 && t.sp == 1 && t.stack[0] == 0x200) = true := by decide

/-- V9. -/
theorem test_call_overflow : stops 0x2300 (base.setSp 16) .stackOverflow = true := by decide

/-- V14. -/
theorem test_ret :
    runs 0x00EE ((base.setSp 2).setStack ((base.stack.set 0 0x111).set 1 0x20A))
      (fun t => t.pc == 0x20C && t.sp == 1 && t.stack[1] == 0x20A) = true := by decide

/-- V12. -/
theorem test_ret_underflow : stops 0x00EE base .stackUnderflow = true := by decide

/-- V4. -/
theorem test_jp : runs 0x1FFF base (fun t => t.pc == 0xFFF) = true := by decide

/-- V16: the sum leaves the memory and is not reduced. -/
theorem test_jpV0 : runs 0xBFFF (withRegs [(0, 0xFF)]) (fun t => t.pc == 0x10FE) = true := by decide

/-- V17: V0 is added, not V2. -/
theorem test_jpV0_register :
    runs 0xB2FF (withRegs [(0, 0x02), (2, 0x80)]) (fun t => t.pc == 0x301) = true := by decide

/-- V5: the second byte of the fetch is outside. -/
theorem test_fetch_outside :
    cycleResponse (base.setPc 0xFFF) = .error (.memoryOutOfBounds 0x1000) := by decide

/-- V18. -/
theorem test_fetch_far_outside :
    cycleResponse (base.setPc 0x10FE) = .error (.memoryOutOfBounds 0x10FE) := by decide

/-! ### Skips -/

/-- V19. -/
theorem test_seImm : runs 0x3A2B (withRegs [(0xA, 0x2B)]) (fun t => t.pc == 0x204) = true := by
  decide

/-- V22: a skip at the end of memory leaves it without a fault. -/
theorem test_seImm_end : runs 0x3000 (base.setPc 0xFFE) (fun t => t.pc == 0x1002) = true := by
  decide

/-- V24. -/
theorem test_sneImm : runs 0x4A2B (withRegs [(0xA, 0x2C)]) (fun t => t.pc == 0x204) = true := by
  decide

/-- V26. -/
theorem test_seReg : runs 0x5120 (withRegs [(1, 7), (2, 8)]) (fun t => t.pc == 0x202) = true := by
  decide

/-- V29. -/
theorem test_sneReg : runs 0x9120 (withRegs [(1, 7), (2, 8)]) (fun t => t.pc == 0x204) = true := by
  decide

/-! ### Loads and arithmetic -/

/-- V33. -/
theorem test_ldImm : runs 0x6A2B base (fun t => t.v 0xA == 0x2B && t.pc == 0x202) = true := by decide

/-- V35: the sum wraps and VF stays. -/
theorem test_addImm :
    runs 0x7002 (withRegs [(0, 0xFF)]) (fun t => t.v 0 == 0x01 && t.v vf == 0) = true := by decide

/-- V39. -/
theorem test_ldReg : runs 0x8120 (withRegs [(2, 0x5C)]) (fun t => t.v 1 == 0x5C) = true := by decide

/-- V42. -/
theorem test_or :
    runs 0x8121 (withRegs [(1, 0x0F), (2, 0xF0), (0xF, 1)]) (fun t => t.v 1 == 0xFF && t.v vf == 1)
      = true := by decide

/-- V43. -/
theorem test_and :
    runs 0x8122 (withRegs [(1, 0x3C), (2, 0x0F), (0xF, 1)]) (fun t => t.v 1 == 0x0C && t.v vf == 1)
      = true := by decide

/-- V44. -/
theorem test_xor :
    runs 0x8123 (withRegs [(1, 0xFF), (2, 0x0F), (0xF, 1)]) (fun t => t.v 1 == 0xF0 && t.v vf == 1)
      = true := by decide

/-- V46. -/
theorem test_addReg :
    runs 0x8124 (withRegs [(1, 0xFF), (2, 0x01)]) (fun t => t.v 1 == 0 && t.v vf == 1) = true := by
  decide

/-- V53: VF is written first, then V1 is added to it (D2). -/
theorem test_addReg_vf :
    runs 0x8F14 (withRegs [(0xF, 0xFF), (1, 0x02)]) (fun t => t.v vf == 0x03) = true := by decide

/-- V57. -/
theorem test_sub :
    runs 0x8125 (withRegs [(1, 0x01), (2, 0x02)]) (fun t => t.v 1 == 0xFF && t.v vf == 0) = true := by
  decide

/-- V63. -/
theorem test_sub_vf :
    runs 0x81F5 (withRegs [(1, 0x09), (0xF, 0x05)]) (fun t => t.v 1 == 0x08 && t.v vf == 1)
      = true := by decide

/-- V70: V7 takes no part. -/
theorem test_shr :
    runs 0x8376 (withRegs [(3, 0x04), (7, 0xFF)]) (fun t => t.v 3 == 0x02 && t.v vf == 0) = true := by
  decide

/-- V69. -/
theorem test_shr_out : runs 0x8306 (withRegs [(3, 0xFF)]) (fun t => t.v 3 == 0x7F && t.v vf == 1)
    = true := by decide

/-- V74. -/
theorem test_subn :
    runs 0x8127 (withRegs [(1, 0x05), (2, 0x02)]) (fun t => t.v 1 == 0xFD && t.v vf == 0) = true := by
  decide

/-- V78. -/
theorem test_subn_vf :
    runs 0x8F17 (withRegs [(0xF, 0x03), (1, 0x09)]) (fun t => t.v vf == 0x08) = true := by decide

/-- V81. -/
theorem test_shl : runs 0x830E (withRegs [(3, 0x81)]) (fun t => t.v 3 == 0x02 && t.v vf == 1)
    = true := by decide

/-- V85. -/
theorem test_shl_vf : runs 0x8F0E (withRegs [(0xF, 0x80)]) (fun t => t.v vf == 0x02) = true := by
  decide

/-- R87: V3 is the free byte, masked; the draw is counted. -/
theorem test_rnd :
    ∃ t, exec (.rnd 3 0x0F) base = .next t ∧ t.v 3 = Config.randomByte 0 &&& 0x0F ∧ t.draws = 1 :=
  ⟨_, rfl, rfl, rfl⟩

/-! ### The index register and memory -/

/-- V94. -/
theorem test_ldI : runs 0xAFFF (base.setI 0x123) (fun t => t.i == 0xFFF) = true := by decide

/-- V96. -/
theorem test_ldI_unknown : stops 0xA2F0 underUnknown (.unknownOpcode 0xA2F0) = true := by decide

/-- V103: V[x] is read before VF is written. -/
theorem test_addI :
    runs 0xFF1E ((withRegs [(0xF, 0x20)]).setI 0x100) (fun t => t.i == 0x120 && t.v vf == 0)
      = true := by decide

/-- V105. -/
theorem test_addI_wide :
    runs 0xF11E ((underWrap.setV 1 1).setI 0xFFF) (fun t => t.i == 0x1000 && t.v vf == 1)
      = true := by decide

/-- V111: no mask. -/
theorem test_ldF : runs 0xF229 (withRegs [(2, 0xFF)]) (fun t => t.i == 0x4FB) = true := by decide

/-- V117: the last three bytes of the memory. -/
theorem test_ldB :
    runs 0xF033 ((withRegs [(0, 0x7B)]).setI 0xFFD)
      (fun t => t.readByte 0xFFD == 1 && t.readByte 0xFFE == 2 && t.readByte 0xFFF == 3) = true := by
  decide

/-- V118. -/
theorem test_ldB_outside :
    stops 0xF033 ((withRegs [(0, 0x7B)]).setI 0xFFE) (.memoryOutOfBounds 0x1000) = true := by decide

/-- V121. -/
theorem test_stRegs :
    runs 0xF255 ((withRegs [(0, 0x11), (1, 0x22), (2, 0x33), (3, 0x44)]).setI 0x300)
      (fun t => t.i == 0x303 && t.readByte 0x300 == 0x11 && t.readByte 0x302 == 0x33 &&
        t.readByte 0x303 == 0) = true := by decide

/-- V124: nothing is stored. -/
theorem test_stRegs_outside :
    stops 0xFF55 ((withRegs [(0, 1)]).setI 0xFF1) (.memoryOutOfBounds 0x1000) = true := by decide

/-- V130, in part: the font is read, V0 to VF. -/
theorem test_ldRegs :
    runs 0xFF65 base (fun t => t.v 0 == 0xF0 && t.v 5 == 0x20 && t.v 0xD == 0x80 && t.v vf == 0xF0 &&
      t.i == 0x10) = true := by decide

/-- V131. -/
theorem test_ldRegs_outside :
    stops 0xF165 (base.setI 0xFFF) (.memoryOutOfBounds 0x1000) = true := by decide

/-- Memory stays in one form: writing back what an unlisted address reads as takes the entry out. -/
theorem test_memory_canonical :
    ((State.reset.storeByte 0x300 0xAA).storeByte 0x300 0).mem = [] ∧
    ((State.reset.storeByte 0x000 0xAA).storeByte 0x000 0xF0).mem = [] := by decide

/-! ### The display -/

/-- V133. -/
theorem test_cls :
    runs 0x00E0 (base.setGfx (cellsOn [(0, 0), (31, 63)]))
      (fun t => !Gfx.cell t.gfx 0 0 && !Gfx.cell t.gfx 31 63 && t.dirty) = true := by decide

/-- V138, in part: the glyph wraps round the corner. -/
theorem test_drw_wraps :
    runs 0xD125 ((withRegs [(1, 0x3E), (2, 0x1E)]).setI 0x32)
      (fun t => t.v vf == 0 && Gfx.cell t.gfx 30 62 && Gfx.cell t.gfx 31 1 && Gfx.cell t.gfx 0 63 &&
        Gfx.cell t.gfx 2 1 && !Gfx.cell t.gfx 31 63 && !Gfx.cell t.gfx 3 62) = true := by decide

/-- V145: one cell goes off, one on. -/
theorem test_drw_collision :
    runs 0xD011 (((base.setI 0x300).storeByte 0x300 0xC0).setGfx (cellsOn [(0, 0)]))
      (fun t => t.v vf == 1 && !Gfx.cell t.gfx 0 0 && Gfx.cell t.gfx 0 1 && t.dirty) = true := by
  decide

/-! ### Keys and timers -/

/-- V151. -/
theorem test_skp :
    runs 0xE29E ((withRegs [(2, 0x0A)]).setKey 10 true) (fun t => t.pc == 0x204) = true := by decide

/-- V156. -/
theorem test_skp_above : stops 0xE29E (withRegs [(2, 0x10)]) (.invalidKeyIndex 0x10) = true := by
  decide

/-- V154. -/
theorem test_sknp :
    runs 0xE2A1 ((withRegs [(2, 0x0A)]).setKey 10 true) (fun t => t.pc == 0x202) = true := by decide

/-- V159. -/
theorem test_sknp_mask4 :
    runs 0xE2A1 ((underMask4.setV 2 0x1A).setKey 10 true) (fun t => t.pc == 0x202) = true := by decide

/-- V162. -/
theorem test_ldVxK :
    runs 0xF50A (((withRegs [(5, 0x99)]).setKey 7 true).setKey 3 true)
      (fun t => t.v 5 == 3 && t.pc == 0x202) = true := by decide

/-- V161: with no key PC stays. -/
theorem test_ldVxK_waits :
    runs 0xF50A (withRegs [(5, 0x99)]) (fun t => t.v 5 == 0x99 && t.pc == 0x200) = true := by decide

/-- V165. -/
theorem test_ldVxDt : runs 0xF307 (base.setDt 60) (fun t => t.v 3 == 0x3C) = true := by decide

/-- V167. -/
theorem test_ldDtVx : runs 0xF415 (withRegs [(4, 0x3C)]) (fun t => t.dt == 60 && t.st == 0)
    = true := by decide

/-- V169. -/
theorem test_ldStVx : runs 0xF418 (withRegs [(4, 0x05)]) (fun t => t.st == 5 && t.dt == 0)
    = true := by decide

/-! ### The cycle and the host -/

/-- H11, R18: the first cycle without a program latches the word and changes nothing else. -/
theorem test_cycle_without_program :
    cycleResponse base = .error (.unknownOpcode 0) ∧ afterCycle base = base := by decide

/-- V28 and R121: the latch holds the unrecognized word. -/
theorem test_error_latches_word :
    (afterCycle (base.withFetchWord 16 0x5121)).ir = 0x5121 ∧
    (afterCycle (base.withFetchWord 16 0x5121)).pc = 0x200 := by decide

/-- T5. -/
theorem test_tick :
    ((base.setDt 3).setSt 1).tick = (base.setDt 2).setSt 0 ∧
    ((base.setDt 3).setSt 1).toneStop = true := by decide

/-- T2. -/
theorem test_tick_at_zero :
    (base.setDt 1).tick = base ∧ (base.setDt 1).toneStop = false := by decide

/-- H3. -/
theorem test_load :
    (State.reset.load [0x12, 0x00]).readByte 0x200 = 0x12 ∧
    (State.reset.load [0x12, 0x00]).pc = 0x200 := by decide

/-- H7 and H9. -/
theorem test_setKey :
    (base.setKey 7 true).keys[7] = true ∧ ((base.setKey 7 true).setKey 7 false) = base := by decide

/-- E1: reset is what `Init` leaves, and the core starts there. -/
theorem test_reset : State.reset.init = State.reset ∧ core.reset = State.reset := ⟨rfl, rfl⟩

/-- R135: the edges of the tone. -/
theorem test_tone_edges :
    toneEdge base (base.setSt 5) = some .on ∧ toneEdge (base.setSt 5) base = some .off ∧
    toneEdge (base.setSt 5) (base.setSt 4) = none := by decide

/-! ### Witnesses: the hypotheses of each obligation can be met, clause by clause -/

/-- The base state with a word at PC. -/
def holding (w : Nat) : State := base.withFetchWord 16 w

/-- The base state with a word at the last address a fetch can succeed at. -/
def holdingAtEnd (w : Nat) : State := (base.setPc 0xFFE).withFetchWord 16 w

theorem base_wf : base.mem.wf base.cfg.font := Memory.wf_nil _

theorem witness_EncodeThenDecode :
    (Instr.ldI 0xFFF).wellFormed .loadIndex = true ∧
    (Instr.drw 0xF 0xF 0xF).wellFormed .unknownOpcode = true := by decide

theorem witness_DecodeThenEncode :
    decodeWord .loadIndex 0xAFFF = some (.ldI 0xFFF) ∧
    decodeWord .unknownOpcode 0x00EE = some .ret := by decide

theorem witness_RowSelectsItsInstruction :
    ∃ r ∈ opcodeMap, r.selects 0xFF65 = true ∧ decodeWord .loadIndex 0xFF65 = some (.ldRegs 0xF) :=
  ⟨⟨"LD_regs", 0xF0FF, 0xF065⟩, by decide, by decide, by decide⟩

theorem witness_UnmatchedWordIsUnrecognized :
    decodeWord .loadIndex 0x5001 = none ∧ (∀ r ∈ opcodeMap, r.selects 0x5001 = false) := by decide

theorem witness_AnnnPolicyDecidesOpA : fieldOp 0xAFFF = 0xA ∧ fieldOp 0xB000 ≠ 0xA := by decide

theorem witness_StepRunsDecodedInstruction :
    (holdingAtEnd 0x6A2B).pc.toNat ≤ 0x0FFE ∧
    decode (holdingAtEnd 0x6A2B).cfg.annn [(holdingAtEnd 0x6A2B).readByte (holdingAtEnd 0x6A2B).pc.toNat,
      (holdingAtEnd 0x6A2B).readByte ((holdingAtEnd 0x6A2B).pc.toNat + 1)]
      = .ok (.ldImm 0xA 0x2B, []) := ⟨by decide, rfl⟩

theorem witness_FetchOutsideMemoryFaults :
    0x0FFF ≤ (base.setPc 0x0FFF).pc.toNat ∧ 0x0FFF ≤ (base.setPc 0x1000).pc.toNat := by decide

theorem witness_UnrecognizedWordReported :
    (holdingAtEnd 0x5121).pc.toNat ≤ 0x0FFE ∧
    (0x5121 : Word).toNat = ((holdingAtEnd 0x5121).readByte (holdingAtEnd 0x5121).pc.toNat).toNat * 256
      + ((holdingAtEnd 0x5121).readByte ((holdingAtEnd 0x5121).pc.toNat + 1)).toNat ∧
    decodeWord (holdingAtEnd 0x5121).cfg.annn 0x5121 = none := by decide

theorem witness_ErrorsArePreciseAndRepeat :
    step (holding 0x00EE) = .fault .stackUnderflow ∧ fetchWord (holding 0x00EE) = .ok 0x00EE ∧
    step (base.setPc 0x0FFF) = .fault (.memoryOutOfBounds 0x1000) ∧
    LeavesError .cycle ∧ LeavesError .tick ∧ LeavesError .readDisplay ∧ LeavesError .clearDirty ∧
    LeavesError (.setKey 0 true) :=
  ⟨rfl, rfl, rfl, .inl rfl, .inr (.inl rfl), .inr (.inr (.inl rfl)), .inr (.inr (.inr (.inl rfl))),
    .inr (.inr (.inr (.inr ⟨_, _, rfl⟩)))⟩

theorem witness_IdleIsFixedPoint :
    Idle (holding 0x1200) ∧ Idle (holdingAtEnd 0x1FFE) ∧ Idle ((holding 0x1200).setIr 0x1200) ∧
    ((holding 0x1200).setIr 0x1200).ir.toNat = 0x1000 + ((holding 0x1200).setIr 0x1200).pc.toNat :=
  ⟨⟨by decide, by decide⟩, ⟨by decide, by decide⟩, ⟨by decide, by decide⟩, by decide⟩

theorem witness_RetPopsAndGoesOn :
    (base.setSp 1).sp.toNat = 0 + 1 ∧ (base.setSp 16).sp.toNat = 15 + 1 ∧ base.sp = 0 := by decide

theorem witness_RetAboveTheStack :
    16 < (base.setSp 17).sp.toNat ∧ 16 < (base.setSp 255).sp.toNat := by decide

theorem witness_CallPushesItsOwnAddress :
    base.sp.toNat < 16 ∧ (base.setSp 15).sp.toNat < 16 ∧ 16 ≤ (base.setSp 16).sp.toNat := by decide

theorem witness_ReturnGoesBehindTheCall :
    ∃ t, exec (.call 0x300) base = .next t ∧ (t.setV 3 7).stack = t.stack ∧
      (t.setV 3 7).sp = t.sp := ⟨_, rfl, rfl, rfl⟩

/-- The four cases of AddRegCarries, SubReportsNoBorrow and SubnReportsNoBorrow and the two of
ShrShiftsInPlace and ShlShiftsInPlace: x and y F or not, and a register that is neither. -/
theorem witness_flag_instruction_cases :
    (1 : Nibble) ≠ vf ∧ (2 : Nibble) ≠ vf ∧ (0xF : Nibble) = vf ∧ (3 : Nibble) ≠ 1 ∧
    (3 : Nibble) ≠ vf := by decide

theorem witness_RndMasksTheFreeByte :
    7 < 8 ∧ (0x7F : Byte).getLsbD 7 = false ∧ (3 : Nibble) ≠ 0xF := by decide

theorem witness_AddIUnderBothParameters :
    base.cfg.fx1eWrap = .mod4096 ∧ underWrap.cfg.fx1eWrap = .mod65536 ∧
    base.cfg.fx1eVf = .writesOverflow ∧ underUnchanged.cfg.fx1eVf = .unchanged ∧
    (0xE : Nibble) ≠ vf := by decide

theorem witness_LdBStoresDigits :
    (base.setI 0xFFD).mem.wf (base.setI 0xFFD).cfg.font ∧ (base.setI 0xFFD).base + 2 < 4096 :=
  ⟨base_wf, by decide⟩

theorem witness_StRegsStoresAndMovesI :
    (base.setI 0xFF0).mem.wf (base.setI 0xFF0).cfg.font ∧
    (base.setI 0xFF0).base + (0xF : Nibble).toNat < 4096 ∧
    (0xF : Nibble).toNat ≤ (0xF : Nibble).toNat := ⟨base_wf, by decide, by decide⟩

theorem witness_LdRegsLoadsAndMovesI :
    (base.setI 0xFFF).base + (0 : Nibble).toNat < 4096 ∧ (0 : Nibble).toNat ≤ (0 : Nibble).toNat ∧
    (0 : Nibble).toNat < (1 : Nibble).toNat := by decide

theorem witness_DataAccessOutsideFaults :
    4096 ≤ (base.setI 0xFFE).base + 2 ∧ 4096 ≤ (base.setI 0xFFF).base + (1 : Nibble).toNat ∧
    4096 ≤ (base.setI 0x1000).base + (0 : Nibble).toNat ∧ (2 : Nibble) ≠ 0 ∧
    4096 ≤ (base.setI 0xFFF).base + ((2 : Nibble).toNat - 1) ∧
    4096 ≤ (base.setI 0x1000).base + ((1 : Nibble).toNat - 1) := by decide

theorem witness_StoredBytesAreFetched :
    (base.setI 0xFFE).mem.wf (base.setI 0xFFE).cfg.font ∧
    (∃ t, exec (.stRegs 1) (base.setI 0xFFE) = .next t) ∧
    (0 : Nibble).toNat + 1 ≤ (1 : Nibble).toNat := ⟨base_wf, ⟨_, rfl⟩, by decide⟩

theorem witness_StoreThenLoadRestores :
    (base.setI 0xFF0).mem.wf (base.setI 0xFF0).cfg.font ∧
    (base.setI 0xFF0).base + (0xF : Nibble).toNat < 4096 := ⟨base_wf, by decide⟩

/-- A sprite byte 0x80 at the last address: it has a bit 1 for cell (0, 0) alone. -/
def spriteAtEnd : State := (base.setI 0xFFF).storeByte 0xFFF 0x80

theorem spriteAtEnd_bit : SpriteBit spriteAtEnd 0 0 1 0 0 :=
  ⟨0, by decide, 0, by decide, by decide, by decide, by decide⟩

theorem spriteAtEnd_no_bit : ¬ SpriteBit spriteAtEnd 0 0 1 0 1 := by
  rintro ⟨r, hr, c, hc, -, hcol, hb⟩
  have hr : r = 0 := by
    have e : (1 : Nibble).toNat = 1 := rfl
    omega
  have hc : c = 1 := by
    have e : (spriteAtEnd.v 0).toNat = 0 := by decide
    have h1 : ((1 : Fin 64)).val = 1 := rfl
    omega
  subst hr hc
  exact absurd hb (by decide)

/-- Both disjuncts of the premise, a cell with a bit and one without, a collision and none. -/
theorem witness_DrwDrawsByExclusiveOr :
    ((0 : Nibble) = 0) ∧ spriteAtEnd.base + (1 : Nibble).toNat ≤ 4096 ∧
    SpriteBit spriteAtEnd 0 0 1 0 0 ∧ ¬ SpriteBit spriteAtEnd 0 0 1 0 1 ∧
    (∃ row col, SpriteBit (spriteAtEnd.setGfx (cellsOn [(0, 0)])) 0 0 1 row col ∧
      Gfx.cell (spriteAtEnd.setGfx (cellsOn [(0, 0)])).gfx row col = true) ∧
    (∀ row col, SpriteBit spriteAtEnd 0 0 1 row col → Gfx.cell spriteAtEnd.gfx row col = false) :=
  ⟨rfl, by decide, spriteAtEnd_bit, spriteAtEnd_no_bit, ⟨0, 0, spriteAtEnd_bit, by decide⟩,
    fun row col _ => Gfx.cell_blank row col⟩

theorem witness_DrawTwiceRestores :
    (0 : Nibble) ≠ vf ∧ (1 : Nibble) ≠ vf ∧ spriteAtEnd.base + (1 : Nibble).toNat ≤ 4096 := by decide

theorem witness_KeySkipsOnKey :
    ((withRegs [(2, 0)]).v 2).toNat < 16 ∧ ((withRegs [(2, 15)]).v 2).toNat < 16 := by decide

theorem witness_KeyNumberAbove15 :
    16 ≤ ((withRegs [(2, 16)]).v 2).toNat ∧ (withRegs [(2, 16)]).cfg.keyIndex = .fault ∧
    16 ≤ ((underMask4.setV 2 0x1A).v 2).toNat ∧ (underMask4.setV 2 0x1A).cfg.keyIndex = .mask4 ∧
    ((underMask4.setV 2 0x1A).v 2).toNat % 16 = (10 : Fin 16).val := by decide

theorem witness_KeyWaitTakesLowestKey :
    ((base.setKey 15 true).keys[(15 : Fin 16)] = true ∧
      ∀ j : Fin 16, j < 15 → (base.setKey 15 true).keys[j] = false) ∧
    ((base.setKey 0 true).keys[(0 : Fin 16)] = true ∧
      ∀ j : Fin 16, j < 0 → (base.setKey 0 true).keys[j] = false) ∧
    (∀ k : Fin 16, base.keys[k] = false) := by decide

theorem witness_InitWritesEverything :
    ∃ t s' : State, t = Transaction.init.run base ∧ s'.cfg = base.cfg ∧ s'.draws = base.draws ∧
      s' ≠ base := ⟨_, base.setPc 0, rfl, rfl, rfl, by decide⟩

theorem witness_LoadPlacesTheImage :
    base.mem.wf base.cfg.font ∧ (List.replicate 3584 (0 : Byte)).length ≤ 3584 ∧
    3584 < (List.replicate 3585 (0 : Byte)).length :=
  ⟨base_wf, by rw [List.length_replicate], by rw [List.length_replicate]; decide⟩

theorem witness_TickCountsDown :
    (∃ t, Transaction.tick.run (base.setSt 1) = t ∧ (base.setSt 1).st.toNat = 1 ∧ t.st.toNat = 0) ∧
    ∃ u, exec (.ldDtVx 2) (withRegs [(2, 9)]) = .next u ∧ u.dt = 9 :=
  ⟨⟨_, rfl, by decide, by decide⟩, ⟨_, rfl, by decide⟩⟩

/-- `HasWord`, in the statements of control flow, skips, loads, bitwise operations, LD F and the
timers, names a word that exists: the largest value of each format. -/
theorem witness_HasWord :
    (0x1FFF : Word).toNat = 0x1000 + (0xFFF : Addr12).toNat ∧
    (0x6FFF : Word).toNat = 0x6000 + (0xF : Nibble).toNat * 256 + (0xFF : Byte).toNat ∧
    (0x8FF3 : Word).toNat = 0x8000 + (0xF : Nibble).toNat * 256 + (0xF : Nibble).toNat * 16 + 3 ∧
    (0xFF15 : Word).toNat = 0xF000 + (0xF : Nibble).toNat * 256 + 0x15 := by decide

/-- Two states that differ in the one stale entry at SP, and not in the entry below it. -/
theorem witness_StaleEntriesUnobservable :
    AgreeBelowSp (base.setSp 1) ((base.setSp 1).setStack (base.stack.set 1 0x234)) ∧
    base.setSp 1 ≠ (base.setSp 1).setStack (base.stack.set 1 0x234) := by
  refine ⟨⟨rfl, fun k h hk => ?_⟩, by decide⟩
  have hk : k < 1 := hk
  obtain rfl : k = 0 := by omega
  rfl

theorem witness_SpecialStateWriters :
    (∃ t, exec (.call 0x300) base = .next t ∧ t.stack ≠ base.stack) ∧
    (∃ t, exec (.ldStVx 0) (withRegs [(0, 5)]) = .next t ∧ t.st ≠ (withRegs [(0, 5)]).st) ∧
    (∃ t, exec (.ldDtVx 0) (withRegs [(0, 5)]) = .next t ∧ t.dt ≠ (withRegs [(0, 5)]).dt) ∧
    (∃ t, exec (.ldI 5) base = .next t ∧ t.i ≠ base.i) :=
  ⟨⟨_, rfl, by decide⟩, ⟨_, rfl, by decide⟩, ⟨_, rfl, by decide⟩, ⟨_, rfl, by decide⟩⟩

theorem witness_MemoryAndDisplayWriters :
    (∃ t, exec (.stRegs 0) (withRegs [(0, 5)]) = .next t ∧ t.mem ≠ (withRegs [(0, 5)]).mem) ∧
    (∃ t, exec .cls base = .next t ∧ t.dirty ≠ base.dirty) :=
  ⟨⟨_, rfl, by decide⟩, ⟨_, rfl, by decide⟩⟩

theorem witness_FlagWriters :
    (∃ t, exec (.addReg 1 2) (withRegs [(1, 0xFF), (2, 1)]) = .next t ∧
      t.v vf ≠ (withRegs [(1, 0xFF), (2, 1)]).v vf) ∧ (1 : Nibble) ≠ vf ∧
    (∃ t, exec (.addI 1) base = .next t) ∧ base.cfg.fx1eVf = .writesOverflow ∧
    (∃ t, exec (.drw 0 0 0) base = .next t) :=
  ⟨⟨_, rfl, by decide⟩, by decide, ⟨_, rfl⟩, by decide, ⟨_, rfl⟩⟩

/-- A state with two return addresses, I at its bound, PC at its bound for a fetch and a byte in
memory meets the invariant. -/
theorem stateInv_example :
    StateInv ((((holdingAtEnd 0x6A2B).setI 0x1000).setSp 2).setStack
      ((base.stack.set 0 0x0FFE).set 1 0x200)) := by
  refine ⟨by decide, by decide, fun k h hk => ?_, by decide, fun _ => by decide⟩
  have hk : k < 2 := hk
  obtain rfl | rfl : k = 0 ∨ k = 1 := by omega
  · exact (by decide : (0x0FFE : Word).toNat ≤ 0x0FFE)
  · exact (by decide : (0x200 : Word).toNat ≤ 0x0FFE)

theorem witness_StepKeepsInv :
    ∃ s t, StateInv s ∧ step s = .next t ∧ t.pc = 0x1000 ∧ t.v 0xA = 0x2B :=
  ⟨_, _, stateInv_example, rfl, by decide, by decide⟩

theorem witness_ReachableHasInv :
    Reachable ((Transaction.load [0x12, 0x00]).run { State.reset with cfg := underWrap.cfg }) :=
  .run _ _ (.init _)

end Sys2Proof.Tests
end

section
/-! PROOF. Words and instructions (spec/30_encoding.md): the fields of a fetched word, and the cycle
whose word is no instruction. -/

namespace Sys2Proof

/-! ### The fields of a word as numbers (R48) -/

/-- A bit field as a number: shift by division, mask by remainder. -/
theorem toNat_extractLsb'_eq {n : Nat} (w : BitVec n) (s l : Nat) :
    (w.extractLsb' s l).toNat = w.toNat / 2 ^ s % 2 ^ l := by
  rw [BitVec.extractLsb'_toNat, Nat.shiftRight_eq_div_pow]

theorem toNat_fieldOp (w : Word) : (fieldOp w).toNat = w.toNat / 4096 % 16 :=
  toNat_extractLsb'_eq w 12 4

theorem toNat_fieldX (w : Word) : (fieldX w).toNat = w.toNat / 256 % 16 :=
  toNat_extractLsb'_eq w 8 4

theorem toNat_fieldY (w : Word) : (fieldY w).toNat = w.toNat / 16 % 16 :=
  toNat_extractLsb'_eq w 4 4

theorem toNat_fieldN (w : Word) : (fieldN w).toNat = w.toNat % 16 :=
  (toNat_extractLsb'_eq w 0 4).trans (congrArg (· % 16) (Nat.div_one w.toNat))

/-- How nn overlaps y and n. -/
theorem toNat_fieldNn_overlap (w : Word) :
    (fieldNn w).toNat = (fieldY w).toNat * 16 + (fieldN w).toNat := by
  rw [fieldNn_eq]; exact toNat_append_eq _ _

/-- How nnn overlaps x and nn. -/
theorem toNat_fieldNnn_overlap (w : Word) :
    (fieldNnn w).toNat = (fieldX w).toNat * 256 + (fieldNn w).toNat := by
  rw [fieldNnn_eq]; exact toNat_append_eq _ _

/-! ### The fields of the word of two bytes -/

section TwoBytes

variable (hi lo : Byte)

theorem toNat_fieldOp_wordOfBytes : (fieldOp (wordOfBytes hi lo)).toNat = hi.toNat / 16 := by
  rw [toNat_fieldOp, toNat_wordOfBytes]; omega

theorem toNat_fieldX_wordOfBytes : (fieldX (wordOfBytes hi lo)).toNat = hi.toNat % 16 := by
  rw [toNat_fieldX, toNat_wordOfBytes]; omega

theorem toNat_fieldY_wordOfBytes : (fieldY (wordOfBytes hi lo)).toNat = lo.toNat / 16 := by
  rw [toNat_fieldY, toNat_wordOfBytes]; omega

theorem toNat_fieldN_wordOfBytes : (fieldN (wordOfBytes hi lo)).toNat = lo.toNat % 16 := by
  rw [toNat_fieldN, toNat_wordOfBytes]; omega

@[simp] theorem fieldNn_wordOfBytes : fieldNn (wordOfBytes hi lo) = lo :=
  (extract_append_low hi lo (s := 0) (l := 8) (by decide)).trans BitVec.extractLsb'_eq_self

end TwoBytes

/-- Settles O2: each nibble is a quotient or a remainder of `hi * 256 + lo`; nn and nnn overlap the
nibbles in every word. -/
theorem fieldsOfTheTwoBytes : Obligations.FieldsOfTheTwoBytes := fun hi lo =>
  ⟨toNat_fieldOp_wordOfBytes hi lo, toNat_fieldX_wordOfBytes hi lo, toNat_fieldY_wordOfBytes hi lo,
    toNat_fieldN_wordOfBytes hi lo, toNat_fieldNn_overlap _, fieldNn_wordOfBytes hi lo,
    toNat_fieldNnn_overlap _⟩

end Sys2Proof

namespace Sys2Proof.Machine

/-! ### The cycle whose word is no instruction (R54) -/

/-- The converse of `fetchWord_ok`: inside the memory, the word whose number the two bytes make is
the one fetched (R30, R45). -/
theorem fetchWord_of_toNat {s : State} {w : Word} (hpc : s.pc.toNat ≤ 0x0FFE)
    (hw : w.toNat = (s.readByte s.pc.toNat).toNat * 256 + (s.readByte (s.pc.toNat + 1)).toNat) :
    fetchWord s = .ok w := by
  have hword : wordOfBytes (s.readByte s.pc.toNat) (s.readByte (s.pc.toNat + 1)) = w :=
    BitVec.eq_of_toNat_eq ((toNat_wordOfBytes _ _).trans hw.symm)
  rw [fetchWord_of_le hpc, hword]

/-- Settles O10: the fault leaves the state but for IR, and IR is no input of the next fetch, so the
next cycle meets the same word. -/
theorem unrecognizedWordReported : Obligations.UnrecognizedWordReported := by
  intro s w hpc hw hd
  have hf : fetchWord s = .ok w := fetchWord_of_toNat hpc hw
  have hstep : step s = .fault (.unknownOpcode w) := step_of_unrecognized hf hd
  have hafter : afterCycle s = s.setIr w := afterCycle_of_fault hstep hf
  have hagain : step (afterCycle s) = .fault (.unknownOpcode w) := by
    rw [hafter, step_setIr hf, hstep]
  exact ⟨hstep, hafter, hagain⟩

end Sys2Proof.Machine
end

section
/-! PROOF. Control flow (spec/40_control_flow.md): the words of the transfers, what each does to the
state, and the statements about RET, JP, CALL and JP V0. -/

namespace Sys2Proof

/-! ### The word of an instruction (R49, R52) -/

/-- A number names an instruction's word when it is the value of the encoding and the encoding
decodes to the instruction under either policy. -/
theorem hasWord_of_encode {i : Instr} {n : Nat} (hn : (encode i).toNat = n)
    (hd : ∀ p, decodeWord p (encode i) = some i) : HasWord i n := by
  intro p w hw
  have hword : w = encode i := BitVec.eq_of_toNat_eq (hw.trans hn.symm)
  rw [hword]
  exact hd p

theorem hasWord_ret : HasWord .ret 0x00EE := hasWord_of_encode rfl fun _ => rfl

section FormatNnn

variable (nnn : Addr12)

theorem hasWord_jp : HasWord (.jp nnn) (0x1000 + nnn.toNat) :=
  hasWord_of_encode (toNat_wordNnn 0x1 nnn) fun p => by simp [encode, decodeWord]

theorem hasWord_call : HasWord (.call nnn) (0x2000 + nnn.toNat) :=
  hasWord_of_encode (toNat_wordNnn 0x2 nnn) fun p => by simp [encode, decodeWord]

theorem hasWord_jpV0 : HasWord (.jpV0 nnn) (0xB000 + nnn.toNat) :=
  hasWord_of_encode (toNat_wordNnn 0xB nnn) fun p => by simp [encode, decodeWord]

end FormatNnn

end Sys2Proof

namespace Sys2Proof.Machine

/-! ### The target of a transfer (R50, R68) -/

theorem addrOf_eq_ofNat (nnn : Addr12) : addrOf nnn = BitVec.ofNat 16 nnn.toNat :=
  (BitVec.ofNat_toNat 16 nnn).symm

theorem zext16_eq_ofNat (b : Byte) : zext16 b = BitVec.ofNat 16 b.toNat :=
  (BitVec.ofNat_toNat 16 b).symm

/-- Zero-extension keeps the address. -/
theorem addrOf_toNat (nnn : Addr12) : (addrOf nnn).toNat = nnn.toNat :=
  BitVec.toNat_setWidth_of_le (by decide)

/-- The sum of a byte and an address field stays below 0x10FF, so 16 bits hold it (R68). -/
theorem toNat_ofNat_byte_add_addr (b : Byte) (nnn : Addr12) :
    (BitVec.ofNat 16 (b.toNat + nnn.toNat)).toNat = b.toNat + nnn.toNat := by
  have hb : b.toNat < 256 := b.isLt
  have hn : nnn.toNat < 4096 := nnn.isLt
  rw [BitVec.toNat_ofNat, Nat.mod_eq_of_lt (by omega)]

/-! ### The stack after a push (R16, R67) -/

section Push

variable {s : State}

theorem State.push_stack_at_sp (a : Word) (h : s.sp.toNat < 16) :
    (s.push a).stack[s.sp.toNat] = a :=
  Vector.getElem_setIfInBounds_self h

theorem State.push_stack_of_ne (a : Word) {k : Nat} (hk : k < 16) (hne : k ≠ s.sp.toNat) :
    (s.push a).stack[k] = s.stack[k] :=
  Vector.getElem_setIfInBounds_ne hk hne.symm

theorem State.push_sp_toNat (a : Word) (h : s.sp.toNat < 16) :
    (s.push a).sp.toNat = s.sp.toNat + 1 :=
  BitVec.toNat_add_of_lt (show s.sp.toNat + 1 < 256 by omega)

end Push

/-! ### What each transfer answers -/

theorem exec_jp (nnn : Addr12) (s : State) : exec (.jp nnn) s = .next (s.setPc (addrOf nnn)) := rfl

theorem exec_jpV0 (nnn : Addr12) (s : State) :
    exec (.jpV0 nnn) s = .next (s.setPc (zext16 (s.v 0) + addrOf nnn)) := rfl

theorem exec_ret_of_empty {s : State} (h : s.sp = 0) : exec .ret s = .fault .stackUnderflow :=
  if_pos h

theorem exec_ret_of_ne {s : State} (h : s.sp ≠ 0) :
    exec .ret s = .next (s.drop.setPc (s.drop.stackAtSp + 2)) := if_neg h

theorem exec_call_of_full (nnn : Addr12) {s : State} (h : 16 ≤ s.sp.toNat) :
    exec (.call nnn) s = .fault .stackOverflow := if_pos h

theorem exec_call_of_lt (nnn : Addr12) {s : State} (h : s.sp.toNat < 16) :
    exec (.call nnn) s = .next ((s.push s.pc).setPc (addrOf nnn)) := if_neg (Nat.not_le.2 h)

/-- An instruction that always answers its state with another PC writes PC alone. -/
theorem movesPc_of_exec {i : Instr} {a : State → Word}
    (h : ∀ s, exec i s = .next (s.setPc (a s))) : MovesPc i a :=
  fun s => ⟨s.setPc (a s), h s, State.setPc_pc s _, rfl, fun b => State.readByte_setPc s _ b⟩

/-! ### The statements -/

/-- Settles O13: with SP not 0, RET drops one entry, which is the one below SP; the state it answers
is the dropped one with PC behind that entry. -/
theorem retPopsAndGoesOn : Obligations.RetPopsAndGoesOn := by
  refine ⟨hasWord_ret, fun s => ⟨fun k hk hsp => ?_, exec_ret_of_empty⟩⟩
  have hne : s.sp ≠ 0 := fun e => by simp [e] at hsp
  have hdrop : s.drop.sp.toNat = k := by rw [State.drop_sp_toNat hne, hsp, Nat.add_sub_cancel]
  have hpc : s.drop.stackAtSp + 2 = s.stack[k] + 2 := by rw [State.drop_stackAtSp hk hsp]
  exact ⟨_, exec_ret_of_ne hne, hdrop, hpc, rfl, fun _ => rfl⟩

/-- Settles O15: JP answers its state with PC the zero-extended field. -/
theorem jpLoadsPc : Obligations.JpLoadsPc := fun nnn =>
  ⟨hasWord_jp nnn, movesPc_of_exec fun s => by rw [exec_jp, addrOf_eq_ofNat]⟩

/-- Settles O16: below sixteen entries CALL pushes PC and jumps, and a push writes the entry at SP
and SP; with sixteen it raises. -/
theorem callPushesItsOwnAddress : Obligations.CallPushesItsOwnAddress := by
  refine fun nnn s => ⟨hasWord_call nnn, fun h => ?_, exec_call_of_full nnn⟩
  exact ⟨_, exec_call_of_lt nnn h, State.push_stack_at_sp s.pc h,
    fun k hk hne => State.push_stack_of_ne s.pc hk hne, State.push_sp_toNat s.pc h,
    addrOf_toNat nnn, rfl, fun _ => rfl⟩

/-- Settles O17: JP V0 answers its state with PC the sum of the two zero-extended operands, which is
too small for the addition of 16 bits to wrap. -/
theorem jpV0AddsV0 : Obligations.JpV0AddsV0 := fun nnn =>
  ⟨hasWord_jpV0 nnn,
    movesPc_of_exec fun s => by
      rw [exec_jpV0, zext16_eq_ofNat, addrOf_eq_ofNat, BitVec.ofNat_add],
    fun s => toNat_ofNat_byte_add_addr (s.v 0) nnn⟩

end Sys2Proof.Machine
end

section
/-! PROOF. Skips (spec/41_skip.md): the words of SE and SNE, where each leaves PC, and the statements
about the comparison with a constant and with a register. -/

namespace Sys2Proof

/-! ### Words of the formats XNN and XYN, summed digit by digit (R49) -/

theorem toNat_wordXnn_eq_sum (op x : Nibble) (nn : Byte) :
    (wordXnn op x nn).toNat = op.toNat * 0x1000 + x.toNat * 256 + nn.toNat := by
  rw [toNat_wordXnn, Nat.add_assoc]

theorem toNat_wordXyn_eq_sum (op x y n : Nibble) :
    (wordXyn op x y n).toNat = op.toNat * 0x1000 + x.toNat * 256 + y.toNat * 16 + n.toNat := by
  rw [toNat_wordXyn, Nat.add_assoc, Nat.add_assoc]

/-! ### The words of the skips (R52) -/

section SkipWords

variable (x y : Nibble) (nn : Byte)

theorem hasWord_seImm : HasWord (.seImm x nn) (0x3000 + x.toNat * 256 + nn.toNat) :=
  hasWord_of_encode (toNat_wordXnn_eq_sum 0x3 x nn) fun p => by simp [encode, decodeWord]

theorem hasWord_sneImm : HasWord (.sneImm x nn) (0x4000 + x.toNat * 256 + nn.toNat) :=
  hasWord_of_encode (toNat_wordXnn_eq_sum 0x4 x nn) fun p => by simp [encode, decodeWord]

theorem hasWord_seReg : HasWord (.seReg x y) (0x5000 + x.toNat * 256 + y.toNat * 16) :=
  hasWord_of_encode (toNat_wordXyn_eq_sum 0x5 x y 0x0) fun p => by simp [encode, decodeWord]

theorem hasWord_sneReg : HasWord (.sneReg x y) (0x9000 + x.toNat * 256 + y.toNat * 16) :=
  hasWord_of_encode (toNat_wordXyn_eq_sum 0x9 x y 0x0) fun p => by simp [encode, decodeWord]

end SkipWords

end Sys2Proof

namespace Sys2Proof.Machine

/-! ### Where a skip leaves PC -/

/-- A skip on a test that decides `P`: PC + 4 when `P` holds, else PC + 2. -/
theorem skipIf_of_iff {c : Bool} {P : Prop} [Decidable P] (hc : c = true ↔ P) (s : State) :
    skipIf c s = .next (s.setPc (if P then s.pc + 4 else s.pc + 2)) := by
  rw [skipIf_eq]
  by_cases hP : P
  · rw [if_pos hP, if_pos (hc.2 hP)]
  · rw [if_neg hP, if_neg fun h => hP (hc.1 h)]

section Skips

variable (x y : Nibble) (nn : Byte) (s : State)

theorem exec_seImm : exec (.seImm x nn) s =
    .next (s.setPc (if s.v x = nn then s.pc + 4 else s.pc + 2)) :=
  skipIf_of_iff beq_iff_eq s

theorem exec_sneImm : exec (.sneImm x nn) s =
    .next (s.setPc (if s.v x ≠ nn then s.pc + 4 else s.pc + 2)) :=
  skipIf_of_iff bne_iff_ne s

theorem exec_seReg : exec (.seReg x y) s =
    .next (s.setPc (if s.v x = s.v y then s.pc + 4 else s.pc + 2)) :=
  skipIf_of_iff beq_iff_eq s

theorem exec_sneReg : exec (.sneReg x y) s =
    .next (s.setPc (if s.v x ≠ s.v y then s.pc + 4 else s.pc + 2)) :=
  skipIf_of_iff bne_iff_ne s

end Skips

/-! ### The statements -/

/-- Settles O19: each word decodes to its instruction, whose test decides the equality of V[x] and
nn or its negation, and a skip answers its state with another PC. -/
theorem skipsOnConstant : Obligations.SkipsOnConstant := fun x nn =>
  ⟨hasWord_seImm x nn, hasWord_sneImm x nn, movesPc_of_exec (exec_seImm x nn),
    movesPc_of_exec (exec_sneImm x nn)⟩

/-- Settles O20: as for a constant, with V[y] read from the same state as V[x]. -/
theorem skipsOnRegister : Obligations.SkipsOnRegister := fun x y =>
  ⟨hasWord_seReg x y, hasWord_sneReg x y, movesPc_of_exec (exec_seReg x y),
    movesPc_of_exec (exec_sneReg x y)⟩

end Sys2Proof.Machine
end

section
/-! PROOF. Register loads and arithmetic without a flag (spec/42_load_alu.md): the words, the one
result each instruction writes to V[x], and the statements about the loads, ADD Vx, nn and the
bitwise operations. -/

namespace Sys2Proof

/-! ### The words of the loads, ADD Vx, nn and the bitwise operations (R52) -/

section LoadAluWords

variable (x y n : Nibble) (nn : Byte)

theorem hasWord_ldImm : HasWord (.ldImm x nn) (0x6000 + x.toNat * 256 + nn.toNat) :=
  hasWord_of_encode (toNat_wordXnn_eq_sum 0x6 x nn) fun p => by simp [encode, decodeWord]

theorem hasWord_addImm : HasWord (.addImm x nn) (0x7000 + x.toNat * 256 + nn.toNat) :=
  hasWord_of_encode (toNat_wordXnn_eq_sum 0x7 x nn) fun p => by simp [encode, decodeWord]

/-- A word with op field 8 decodes by its n field alone, under either policy. -/
theorem decodeWord_wordXyn_8 (p : AnnnPolicy) :
    decodeWord p (wordXyn 0x8 x y n) = decodeGroup8 x y n := by
  simp [decodeWord]

theorem hasWord_ldReg : HasWord (.ldReg x y) (0x8000 + x.toNat * 256 + y.toNat * 16) :=
  hasWord_of_encode (toNat_wordXyn_eq_sum 0x8 x y 0x0) (decodeWord_wordXyn_8 x y 0x0)

theorem hasWord_or : HasWord (.or x y) (0x8000 + x.toNat * 256 + y.toNat * 16 + 1) :=
  hasWord_of_encode (toNat_wordXyn_eq_sum 0x8 x y 0x1) (decodeWord_wordXyn_8 x y 0x1)

theorem hasWord_and : HasWord (.and x y) (0x8000 + x.toNat * 256 + y.toNat * 16 + 2) :=
  hasWord_of_encode (toNat_wordXyn_eq_sum 0x8 x y 0x2) (decodeWord_wordXyn_8 x y 0x2)

theorem hasWord_xor : HasWord (.xor x y) (0x8000 + x.toNat * 256 + y.toNat * 16 + 3) :=
  hasWord_of_encode (toNat_wordXyn_eq_sum 0x8 x y 0x3) (decodeWord_wordXyn_8 x y 0x3)

end LoadAluWords

end Sys2Proof

namespace Sys2Proof.Machine

/-! ### What each instruction writes to V[x] (R76 to R81) -/

section OneResult

variable (x y : Nibble) (nn : Byte) (s : State)

theorem exec_ldImm : exec (.ldImm x nn) s = writeV x nn s := rfl

theorem exec_addImm : exec (.addImm x nn) s = writeV x (s.v x + nn) s := rfl

theorem exec_ldReg : exec (.ldReg x y) s = writeV x (s.v y) s := rfl

theorem exec_or : exec (.or x y) s = writeV x (s.v x ||| s.v y) s := rfl

theorem exec_and : exec (.and x y) s = writeV x (s.v x &&& s.v y) s := rfl

theorem exec_xor : exec (.xor x y) s = writeV x (s.v x ^^^ s.v y) s := rfl

end OneResult

/-- The addition of bytes is that of their values, mod 256 (R75). -/
theorem byte_add_eq_ofNat_mod (a b : Byte) :
    a + b = BitVec.ofNat 8 ((a.toNat + b.toNat) % 256) :=
  BitVec.eq_of_toNat_eq (by simp)

/-- An instruction that always ends by writing one result to V[x] writes V[x] and PC + 2 alone. -/
theorem writesV_of_exec {i : Instr} {x : Nibble} {b : State → Byte}
    (h : ∀ s, exec i s = writeV x (b s) s) : WritesV i x b := by
  intro s
  refine ⟨(s.setV x (b s)).setPc (s.pc + 2), (h s).trans (writeV_eq x (b s) s), ?_, ?_, rfl, rfl,
    fun _ => rfl⟩
  · simp
  · intro r hr
    simp [hr]

/-! ### The statements -/

/-- Settles O21: the result written to V[x] is the nn field of the word. -/
theorem ldImmLoadsConstant : Obligations.LdImmLoadsConstant := fun x nn =>
  ⟨hasWord_ldImm x nn, writesV_of_exec (exec_ldImm x nn)⟩

/-- Settles O22: the result written to V[x] is the byte sum, which wraps; nothing else is written,
so VF keeps its value unless it is V[x]. -/
theorem addImmWrapsWithoutFlag : Obligations.AddImmWrapsWithoutFlag := fun x nn =>
  ⟨hasWord_addImm x nn, writesV_of_exec fun s => by rw [exec_addImm, byte_add_eq_ofNat_mod]⟩

/-- Settles O23: the result written to V[x] is V[y] as it was. -/
theorem ldRegCopies : Obligations.LdRegCopies := fun x y =>
  ⟨hasWord_ldReg x y, writesV_of_exec (exec_ldReg x y)⟩

/-- Settles O24: each of the three words differs in n, and each instruction writes its one bitwise
result to V[x]. -/
theorem bitwiseOperations : Obligations.BitwiseOperations := fun x y =>
  ⟨hasWord_or x y, hasWord_and x y, hasWord_xor x y, writesV_of_exec (exec_or x y),
    writesV_of_exec (exec_and x y), writesV_of_exec (exec_xor x y)⟩

end Sys2Proof.Machine
end

section
/-! PROOF. The index register (spec/43_index_memory.md): the word of LD F, the product it forms, and
the statement about the glyph address. -/

namespace Sys2Proof

/-! ### Words of group F (R52) -/

section GroupFWords

variable (x : Nibble) (nn : Byte)

/-- A word with op field F decodes by its nn field alone, under either policy. -/
theorem decodeWord_wordXnn_F (p : AnnnPolicy) :
    decodeWord p (wordXnn 0xF x nn) = decodeGroupF x nn := by
  simp [decodeWord]

theorem hasWord_ldF : HasWord (.ldF x) (0xF000 + x.toNat * 256 + 0x29) :=
  hasWord_of_encode (toNat_wordXnn_eq_sum 0xF x 0x29) (decodeWord_wordXnn_F x 0x29)

end GroupFWords

end Sys2Proof

namespace Sys2Proof.Machine

/-! ### The address LD F forms (R92) -/

/-- Zero-extension keeps the byte's value. -/
theorem zext16_toNat (b : Byte) : (zext16 b).toNat = b.toNat :=
  BitVec.toNat_setWidth_of_le (by decide)

/-- Five times a byte is at most 0x4FB, so 16 bits hold the product of every V[x] (R92). -/
theorem toNat_zext16_mul_five (b : Byte) : (zext16 b * 5).toNat = b.toNat * 5 := by
  have hb : b.toNat < 256 := b.isLt
  calc (zext16 b * 5).toNat = (zext16 b).toNat * 5 % 2 ^ 16 := BitVec.toNat_mul _ _
    _ = b.toNat * 5 % 2 ^ 16 := by rw [zext16_toNat]
    _ = b.toNat * 5 := Nat.mod_eq_of_lt (by omega)

theorem exec_ldF (x : Nibble) (s : State) :
    exec (.ldF x) s = .next ((s.setI (zext16 (s.v x) * 5)).setPc (s.pc + 2)) := rfl

/-- An instruction that always answers its state with another I and PC + 2 writes I and PC alone. -/
theorem writesI_of_exec {i : Instr} {a : State → Word} {n : State → Nat}
    (h : ∀ s, exec i s = .next ((s.setI (a s)).setPc (s.pc + 2))) (hn : ∀ s, (a s).toNat = n s) :
    WritesI i n :=
  fun s => ⟨(s.setI (a s)).setPc (s.pc + 2), h s, hn s, rfl, rfl, fun _ => rfl⟩

/-! ### The statement -/

/-- Settles O33: LD F answers its state with I the product of the zero-extended V[x] and 5, which is
too small for the multiplication of 16 bits to wrap. -/
theorem ldFPointsAtGlyph : Obligations.LdFPointsAtGlyph := fun x =>
  ⟨hasWord_ldF x, writesI_of_exec (exec_ldF x) fun s => toNat_zext16_mul_five (s.v x)⟩

end Sys2Proof.Machine
end

section
/-! PROOF. The display (spec/44_display.md): the word of CLS, the state it answers, and the statement
about clearing. -/

namespace Sys2Proof

theorem hasWord_cls : HasWord .cls 0x00E0 := hasWord_of_encode rfl fun _ => rfl

end Sys2Proof

namespace Sys2Proof.Machine

/-- CLS blanks the display, marks it dirty and goes on, whatever the display held (R100). -/
theorem exec_cls (s : State) :
    exec .cls s = .next (((s.setGfx blankGfx).setDirty true).setPc (s.pc + 2)) := rfl

/-! ### The statement -/

/-- Settles O40: CLS answers its state with the blank display, in which every cell is off, the dirty
flag set without a look at the old display, and PC + 2. -/
theorem clsClearsTheDisplay : Obligations.ClsClearsTheDisplay := by
  refine ⟨hasWord_cls, fun s => ⟨_, exec_cls s, ?cells, ?dirty, ?pc, ?frame, ?memory⟩⟩
  case cells => exact Gfx.cell_blank
  case dirty => exact State.setDirty_dirty (s.setGfx blankGfx) true
  case pc => exact State.setPc_pc _ (s.pc + 2)
  case frame => rfl
  case memory => exact fun a => by simp

end Sys2Proof.Machine
end

section
/-! PROOF. The timers (spec/45_keypad_timers.md): the words that read and set DT, what each answers,
and the statement about them. -/

namespace Sys2Proof

/-! ### The words of the delay timer (R52) -/

section DelayTimerWords

variable (x : Nibble)

theorem hasWord_ldVxDt : HasWord (.ldVxDt x) (0xF000 + x.toNat * 256 + 0x07) :=
  hasWord_of_encode (toNat_wordXnn_eq_sum 0xF x 0x07) (decodeWord_wordXnn_F x 0x07)

theorem hasWord_ldDtVx : HasWord (.ldDtVx x) (0xF000 + x.toNat * 256 + 0x15) :=
  hasWord_of_encode (toNat_wordXnn_eq_sum 0xF x 0x15) (decodeWord_wordXnn_F x 0x15)

end DelayTimerWords

end Sys2Proof

namespace Sys2Proof.Machine

/-! ### What the two instructions answer (R108, R109) -/

section DelayTimer

variable (x : Nibble) (s : State)

theorem exec_ldVxDt : exec (.ldVxDt x) s = writeV x s.dt s := rfl

theorem exec_ldDtVx : exec (.ldDtVx x) s = .next ((s.setDt (s.v x)).setPc (s.pc + 2)) := rfl

end DelayTimer

/-! ### The statement -/

/-- Settles O46: the read is one result written to V[x]; the write answers its state with DT
replaced, whatever count was running, and PC + 2. -/
theorem delayTimerMoves : Obligations.DelayTimerMoves := by
  refine fun x => ⟨hasWord_ldVxDt x, hasWord_ldDtVx x, writesV_of_exec (exec_ldVxDt x),
    fun s => ⟨_, exec_ldDtVx x s, ?dt, ?pc, ?frame, ?memory⟩⟩
  case dt => exact State.setDt_dt s (s.v x)
  case pc => exact State.setPc_pc _ (s.pc + 2)
  case frame => rfl
  case memory => exact fun a => by simp

end Sys2Proof.Machine
end

section
/-! PROOF. The tick of the timers (spec/60_exceptions.md R128, R129): what one tick leaves in a timer
and reports, what an instruction can do to the timers, and the statement about both. -/

namespace Sys2Proof.Machine

/-! ### What a tick does to the timers and reports (R128, R129) -/

/-- The count of a timer after a tick stops at 0, which is the truncated subtraction. -/
theorem tickDown_toNat (n : Byte) : (tickDown n).toNat = n.toNat - 1 := by
  unfold tickDown
  split
  case isTrue h => rw [h]; rfl
  case isFalse h =>
    have hpos : n.toNat ≠ 0 := fun e => h (BitVec.eq_of_toNat_eq e)
    exact BitVec.toNat_sub_of_le (Nat.one_le_iff_ne_zero.2 hpos)

section Tick

variable (s : State)

theorem State.tick_dt_toNat : s.tick.dt.toNat = s.dt.toNat - 1 := tickDown_toNat s.dt

theorem State.tick_st_toNat : s.tick.st.toNat = s.st.toNat - 1 := tickDown_toNat s.st

theorem State.toneStop_iff : s.toneStop = true ↔ s.st.toNat = 1 :=
  decide_eq_true_iff.trans BitVec.toNat_inj.symm

/-- The report, which is of the state before the tick, is of the step of ST from 1 to 0: a tick that
finds 1 leaves 0. -/
theorem State.toneStop_iff_tick : s.toneStop = true ↔ s.st.toNat = 1 ∧ s.tick.st.toNat = 0 := by
  rw [State.toneStop_iff, State.tick_st_toNat]
  omega

end Tick

/-! ### What an instruction does to the timers (R17, R109, R110) -/

theorem exec_ldStVx (x : Nibble) (s : State) :
    exec (.ldStVx x) s = .next ((s.setSt (s.v x)).setPc (s.pc + 2)) := rfl

/-- Everything an instruction that completes can have done to the timers: each is as before, or is
the register that the instruction which sets it names. -/
theorem exec_next_timers {i : Instr} {s u : State} (h : exec i s = .next u) :
    (u.dt = s.dt ∨ ∃ x, i = .ldDtVx x ∧ u.dt = s.v x) ∧
      (u.st = s.st ∨ ∃ x, i = .ldStVx x ∧ u.st = s.v x) := by
  cases i
  case ldDtVx x => cases h; exact ⟨.inr ⟨x, rfl, rfl⟩, .inl rfl⟩
  case ldStVx x => cases h; exact ⟨.inl rfl, .inr ⟨x, rfl, rfl⟩⟩
  case ret =>
    by_cases hsp : s.sp = 0
    · rw [exec_ret_of_empty hsp] at h; cases h
    · rw [exec_ret_of_ne hsp] at h; cases h; exact ⟨.inl rfl, .inl rfl⟩
  case call nnn =>
    by_cases hsp : 16 ≤ s.sp.toNat
    · rw [exec_call_of_full nnn hsp] at h; cases h
    · rw [exec_call_of_lt nnn (Nat.lt_of_not_le hsp)] at h; cases h; exact ⟨.inl rfl, .inl rfl⟩
  case skp | sknp =>
    simp only [exec, execSkp, execSknp, skipIf_eq] at h
    obtain ⟨down, h⟩ := withKey_next h
    cases h; exact ⟨.inl rfl, .inl rfl⟩
  case drw | ldRegs =>
    obtain ⟨-, h⟩ := inBounds_next h
    cases h; exact ⟨.inl rfl, .inl rfl⟩
  case ldB | stRegs =>
    obtain ⟨-, h⟩ := inBounds_next h
    cases h; exact ⟨.inl (s.storeBytes_dt _ _), .inl (s.storeBytes_st _ _)⟩
  case ldVxK x =>
    simp only [exec, execLdVxK] at h
    split at h <;> cases h <;> exact ⟨.inl rfl, .inl rfl⟩
  case addI x =>
    simp only [exec, execAddI, reportOverflow_eq] at h
    cases h; exact ⟨.inl rfl, .inl rfl⟩
  all_goals cases h; exact ⟨.inl rfl, .inl rfl⟩

/-! ### The statement -/

/-- Settles O50: a tick replaces the two timers by their counts less one and reports on ST as it was;
an instruction that completes keeps each timer or sets it from its register. -/
theorem tickCountsDown : Obligations.TickCountsDown := by
  rintro s t rfl
  exact ⟨s.tick_dt_toNat, s.tick_st_toNat, rfl, ⟨s.toneStop, rfl, s.toneStop_iff_tick⟩,
    fun _ _ => exec_next_timers⟩

end Sys2Proof.Machine
end

section
/-! PROOF. The decoder and the encoder (spec/30_encoding.md): that each undoes the other, that the
rows of the opcode map are told apart by their masks and cover exactly the words that decode, and
the statements about both directions, the rows and `ANNN_POLICY`. -/

namespace Sys2Proof

/-! ### The encoder, then the decoder (R49, R52) -/

/-- The literal digits of an encoding select the arm of the decoder that reads its operands back. -/
theorem decodeWord_encode {p : AnnnPolicy} {i : Instr} (hi : i.wellFormed p = true) :
    decodeWord p (encode i) = some i := by
  cases i
  case cls | ret => rfl
  case ldI nnn =>
    have hp : p = .loadIndex := of_decide_eq_true hi
    simp [encode, decodeWord, hp]
  case ldReg x y | or x y | and x y | xor x y | addReg x y | sub x y | shr x y | subn x y |
      shl x y =>
    exact decodeWord_wordXyn_8 x y _ p
  case skp | sknp => simp [encode, decodeWord, decodeGroupE]
  case ldVxDt x | ldVxK x | ldDtVx x | ldStVx x | addI x | ldF x | ldB x | stRegs x | ldRegs x =>
    exact decodeWord_wordXnn_F x _ p
  all_goals simp [encode, decodeWord]

/-- Settles O3: the two bytes make the encoding again, which decodes to the instruction. -/
theorem encodeThenDecode : Obligations.EncodeThenDecode := by
  intro p i rest hi
  rw [encodeBytes, List.cons_append, List.cons_append, List.nil_append, decode_cons,
    decodeWord_encode hi]

/-! ### The decoder, then the encoder (R51, R52) -/

section Groups

variable {p : AnnnPolicy} {i : Instr} {w : Word} {op x y n : Nibble} {nn : Byte} {nnn : Addr12}

theorem encode_of_decodeGroup0 (h : decodeGroup0 nnn = some i) :
    encode i = wordNnn 0x0 nnn ∧ i.wellFormed p = true := by
  unfold decodeGroup0 at h
  split at h <;> cases h <;> exact ⟨rfl, rfl⟩

theorem encode_of_decodeGroup8 (h : decodeGroup8 x y n = some i) :
    encode i = wordXyn 0x8 x y n ∧ i.wellFormed p = true := by
  unfold decodeGroup8 at h
  split at h <;> cases h <;> exact ⟨rfl, rfl⟩

theorem encode_of_decodeGroupE (h : decodeGroupE x nn = some i) :
    encode i = wordXnn 0xE x nn ∧ i.wellFormed p = true := by
  unfold decodeGroupE at h
  split at h <;> cases h <;> exact ⟨rfl, rfl⟩

theorem encode_of_decodeGroupF (h : decodeGroupF x nn = some i) :
    encode i = wordXnn 0xF x nn ∧ i.wellFormed p = true := by
  unfold decodeGroupF at h
  split at h <;> cases h <;> exact ⟨rfl, rfl⟩

/-! A word with a known op field, from its other fields. -/

theorem wordNnn_of_fieldOp (h : fieldOp w = op) : wordNnn op (fieldNnn w) = w :=
  h ▸ wordNnn_fields w

theorem wordXnn_of_fieldOp (h : fieldOp w = op) : wordXnn op (fieldX w) (fieldNn w) = w :=
  h ▸ wordXnn_fields w

theorem wordXyn_of_fieldOp (h : fieldOp w = op) :
    wordXyn op (fieldX w) (fieldY w) (fieldN w) = w :=
  h ▸ wordXyn_fields w

theorem wordXyn_of_fieldOp_of_fieldN (h : fieldOp w = op) (hn : fieldN w = n) :
    wordXyn op (fieldX w) (fieldY w) n = w :=
  hn ▸ wordXyn_of_fieldOp h

end Groups

/-- The op field that is left when every other digit is ruled out. -/
theorem nibble_eq_F_of_not_mem : ∀ op : Nibble,
    op ∉ [0x0#4, 0x1, 0x2, 0x3, 0x4, 0x5, 0x6, 0x7, 0x8, 0x9, 0xA, 0xB, 0xC, 0xD, 0xE] →
      op = 0xF := by
  decide

theorem encode_of_decodeWord {p : AnnnPolicy} {w : Word} {i : Instr}
    (h : decodeWord p w = some i) : encode i = w ∧ i.wellFormed p = true := by
  unfold decodeWord at h
  split at h
  case h_1 hop => exact wordNnn_of_fieldOp hop ▸ encode_of_decodeGroup0 h
  case h_9 hop => exact wordXyn_of_fieldOp hop ▸ encode_of_decodeGroup8 h
  case h_15 hop => exact wordXnn_of_fieldOp hop ▸ encode_of_decodeGroupE h
  case h_16 =>
    have hop : fieldOp w = 0xF :=
      nibble_eq_F_of_not_mem _ (by simp only [imp_false] at *; simp [*])
    exact wordXnn_of_fieldOp hop ▸ encode_of_decodeGroupF h
  case h_6 hop | h_10 hop =>
    obtain ⟨hn, ⟨⟩⟩ := Option.ite_none_right_eq_some.1 h
    exact ⟨wordXyn_of_fieldOp_of_fieldN hop hn, rfl⟩
  case h_11 hop =>
    obtain ⟨hp, ⟨⟩⟩ := Option.ite_none_right_eq_some.1 h
    exact ⟨wordNnn_of_fieldOp hop, decide_eq_true hp⟩
  case h_2 hop | h_3 hop | h_12 hop => cases h; exact ⟨wordNnn_of_fieldOp hop, rfl⟩
  case h_14 hop => cases h; exact ⟨wordXyn_of_fieldOp hop, rfl⟩
  case h_4 hop | h_5 hop | h_7 hop | h_8 hop | h_13 hop =>
    cases h; exact ⟨wordXnn_of_fieldOp hop, rfl⟩

/-- Settles O4: each arm of the decoder reads every field its op field leaves open, so the fields
put together again are the word. -/
theorem decodeThenEncode : Obligations.DecodeThenEncode := fun _ _ _ => encode_of_decodeWord

/-! ### The rows of the opcode map (R51, R52) -/

open Laws in
/-- The word of every instruction is selected by the row of its name. -/
theorem row_selects_encode (i : Instr) :
    ∃ r ∈ opcodeMap, r.mnemonic = i.mnemonic ∧ r.selects (encode i) = true := by
  cases i
  exacts [Encoding.cls, Encoding.ret, Encoding.jp _, Encoding.call _, Encoding.seImm _ _,
    Encoding.sneImm _ _, Encoding.seReg _ _, Encoding.ldImm _ _, Encoding.addImm _ _,
    Encoding.ldReg _ _, Encoding.or _ _, Encoding.and _ _, Encoding.xor _ _, Encoding.addReg _ _,
    Encoding.sub _ _, Encoding.shr _ _, Encoding.subn _ _, Encoding.shl _ _, Encoding.sneReg _ _,
    Encoding.ldI _, Encoding.jpV0 _, Encoding.rnd _ _, Encoding.drw _ _ _, Encoding.skp _,
    Encoding.sknp _, Encoding.ldVxDt _, Encoding.ldVxK _, Encoding.ldDtVx _, Encoding.ldStVx _,
    Encoding.addI _, Encoding.ldF _, Encoding.ldB _, Encoding.stRegs _, Encoding.ldRegs _]

/-- A word that decodes is selected by the row of its instruction. -/
theorem row_selects_of_decodeWord {p : AnnnPolicy} {w : Word} {i : Instr}
    (h : decodeWord p w = some i) :
    ∃ r ∈ opcodeMap, r.mnemonic = i.mnemonic ∧ r.selects w = true := by
  obtain ⟨rfl, -⟩ := encode_of_decodeWord h
  exact row_selects_encode i

/-- Two rows that select one word agree wherever both masks look. -/
theorem value_and_mask_comm {r r' : OpcodeRow} {w : Word} (h : r.selects w = true)
    (h' : r'.selects w = true) : r.value &&& r'.mask = r'.value &&& r.mask := by
  have e : w &&& r.mask = r.value := beq_iff_eq.1 h
  have e' : w &&& r'.mask = r'.value := beq_iff_eq.1 h'
  rw [← e, ← e', BitVec.and_assoc, BitVec.and_assoc, BitVec.and_comm r.mask]

/-- Two rows of the map differ in a digit that both masks look at. -/
theorem row_eq_of_value_and_mask : ∀ r ∈ opcodeMap, ∀ r' ∈ opcodeMap,
    r.value &&& r'.mask = r'.value &&& r.mask → r = r' := by
  decide

theorem row_eq_of_selects {r r' : OpcodeRow} {w : Word} (hr : r ∈ opcodeMap) (hr' : r' ∈ opcodeMap)
    (h : r.selects w = true) (h' : r'.selects w = true) : r = r' :=
  row_eq_of_value_and_mask r hr r' hr' (value_and_mask_comm h h')

theorem row_eq_of_mnemonic : ∀ r ∈ opcodeMap, ∀ r' ∈ opcodeMap,
    r.mnemonic = r'.mnemonic → r = r' := by
  decide


/-! A field that a row's mask covers is, in every word the row selects, the row's own. -/

section Covered

variable {r : OpcodeRow} {w : Word}

/-- A bit field of a selected word, where the mask has all its bits. -/
theorem extract_of_selects {k l : Nat} (h : r.selects w = true)
    (hm : r.mask.extractLsb' k l = BitVec.allOnes l) :
    w.extractLsb' k l = r.value.extractLsb' k l := by
  have e : w &&& r.mask = r.value := beq_iff_eq.1 h
  rw [← e, BitVec.extractLsb'_and, hm, BitVec.and_allOnes]

theorem fieldOp_of_selects (h : r.selects w = true) (hm : fieldOp r.mask = 0xF) :
    fieldOp w = fieldOp r.value := extract_of_selects h hm

theorem fieldN_of_selects (h : r.selects w = true) (hm : fieldN r.mask = 0xF) :
    fieldN w = fieldN r.value := extract_of_selects h hm

theorem fieldNn_of_selects (h : r.selects w = true) (hm : fieldNn r.mask = 0xFF) :
    fieldNn w = fieldNn r.value := extract_of_selects h hm

theorem fieldNnn_of_selects (h : r.selects w = true) (hm : fieldNnn r.mask = 0xFFF) :
    fieldNnn w = fieldNnn r.value := extract_of_selects h hm

end Covered

/-- The literal digits of a row select an arm of the decoder that answers an instruction. -/
theorem decodes_of_selects {w : Word} : ∀ r ∈ opcodeMap, r.selects w = true →
    ∃ i, decodeWord .loadIndex w = some i := by
  intro r hr h
  have hop := fieldOp_of_selects h
  have hn := fieldN_of_selects h
  have hnn := fieldNn_of_selects h
  have hnnn := fieldNnn_of_selects h
  clear h
  fin_cases hr
  all_goals simp_all [decodeWord, decodeGroup0, decodeGroup8, decodeGroupE, decodeGroupF, fieldOp,
    fieldN, fieldNn, fieldNnn]

/-- Settles O5: a selected word decodes, and the row of what it decodes to selects it too, so it is
the same row; two rows of one name are the same, and so are two that select one word. -/
theorem rowSelectsItsInstruction : Obligations.RowSelectsItsInstruction := by
  refine fun w r hr => ⟨⟨fun h => ?_, ?_⟩, fun r' hr' h h' => row_eq_of_selects hr hr' h h'⟩
  · obtain ⟨i, hi⟩ := decodes_of_selects r hr h
    obtain ⟨r', hr', hname, h'⟩ := row_selects_of_decodeWord hi
    exact ⟨i, hi, row_eq_of_selects hr hr' h h' ▸ hname.symm⟩
  · rintro ⟨i, hi, hname⟩
    obtain ⟨r', hr', hname', h'⟩ := row_selects_of_decodeWord hi
    exact row_eq_of_mnemonic r' hr' r hr (hname'.trans hname) ▸ h'

/-- Settles O6: a row that selects the word makes it decode, and what a word decodes to has a row
that selects it. -/
theorem unmatchedWordIsUnrecognized : Obligations.UnmatchedWordIsUnrecognized := by
  refine fun w => ⟨fun hnone r hr => Bool.eq_false_iff.2 fun h => ?_, fun hrows => ?_⟩
  · obtain ⟨i, hi⟩ := decodes_of_selects r hr h
    rw [hnone] at hi; cases hi
  · refine Option.eq_none_iff_forall_ne_some.2 fun i hi => ?_
    obtain ⟨r, hr, -, h⟩ := row_selects_of_decodeWord hi
    rw [hrows r hr] at h; cases h

/-! ### The policy and words written out (R52, R60) -/

/-- Settles O7: only the arm of op field A looks at the policy. -/
theorem annnPolicyDecidesOpA : Obligations.AnnnPolicyDecidesOpA := by
  refine fun w => ⟨fun hop => ?_, fun hop => ?_⟩
  · simp [decodeWord, hop]
  · unfold decodeWord
    split
    case h_11 hA => exact absurd hA hop
    all_goals rfl

/-- Settles O1: the decoder, run on each pair of bytes. -/
theorem writtenWordsDecode : Obligations.WrittenWordsDecode :=
  ⟨rfl, rfl, rfl, rfl, rfl, rfl, rfl, rfl, rfl, rfl, rfl⟩

end Sys2Proof
end

section
/-! PROOF. What the instructions answer that the sections above do not name, and the inversion of
`exec`: the states an instruction can complete in. -/

namespace Sys2Proof.Machine

/-! ### What each instruction answers -/

section Answers

variable (x y n : Nibble) (nn : Byte) (nnn : Addr12) (s : State)

theorem exec_addReg : exec (.addReg x y) s = flagThenResult carries (fun a b => a + b) x y s := rfl

theorem exec_sub : exec (.sub x y) s = flagThenResult noBorrow (fun a b => a - b) x y s := rfl

theorem exec_subn : exec (.subn x y) s =
    flagThenResult (fun a b => noBorrow b a) (fun a b => b - a) x y s := rfl

theorem exec_shr : exec (.shr x y) s =
    flagThenResult (fun a _ => lowBit a) (fun a _ => a >>> 1) x x s := rfl

theorem exec_shl : exec (.shl x y) s =
    flagThenResult (fun a _ => topBit a) (fun a _ => a <<< 1) x x s := rfl

theorem exec_rnd : exec (.rnd x nn) s =
    writeV x (Config.randomByte s.draws &&& nn) (s.setDraws (s.draws + 1)) := rfl

theorem exec_ldI : exec (.ldI nnn) s = .next ((s.setI (addrOf nnn)).setPc (s.pc + 2)) := rfl

/-- ADD I writes I, and VF as `FX1E_VF` says (R91). -/
theorem exec_addI : ∃ b, exec (.addI x) s =
      .next (((s.setI (wrapIndex s.cfg.fx1eWrap (s.i.toNat + (s.v x).toNat))).setV vf b).setPc
        (s.pc + 2)) ∧
    (s.cfg.fx1eVf = .writesOverflow → b = flagByte (exceeds12 (s.i.toNat + (s.v x).toNat))) ∧
    (s.cfg.fx1eVf = .unchanged → b = s.v vf) := by
  simp only [exec, execAddI, reportOverflow_eq]
  exact ⟨_, rfl, fun h => by simp [h], fun h => by simp [h]⟩

theorem exec_ldB : exec (.ldB x) s = inBounds s.base 3
    (.next ((s.storeBytes s.base (decimalDigits (s.v x))).setPc (s.pc + 2))) := by
  simp only [exec, execLdB, nextInstr_eq, State.storeBytes_pc]

theorem exec_stRegs : exec (.stRegs x) s = inBounds s.base (x.toNat + 1)
    (.next (((s.storeBytes s.base (s.regsUpTo x)).setI (s.i + BitVec.ofNat 16 (x.toNat + 1))).setPc
      (s.pc + 2))) := by
  simp only [exec, execStRegs, nextInstr_eq, State.bumpI, State.setI_pc, State.storeBytes_pc,
    State.storeBytes_i]

theorem exec_ldRegs : exec (.ldRegs x) s = inBounds s.base (x.toNat + 1)
    (.next (((s.setRegs (fillRegs s.regs 0 (s.loadBytes s.base (x.toNat + 1)))).setI
      (s.i + BitVec.ofNat 16 (x.toNat + 1))).setPc (s.pc + 2))) := rfl

theorem exec_drw : exec (.drw x y n) s = inBounds s.base n.toNat
    (.next ((((s.setGfx (s.drawn x y n).1).setV vf (flagByte (s.drawn x y n).2)).setDirty
      true).setPc (s.pc + 2))) := rfl

theorem exec_skp : exec (.skp x) s = withKey s (s.v x) fun down =>
    .next (s.setPc (s.pc + if down then 4 else 2)) := by
  simp only [exec, execSkp, skipIf_eq]

theorem exec_sknp : exec (.sknp x) s = withKey s (s.v x) fun down =>
    .next (s.setPc (s.pc + if !down then 4 else 2)) := by
  simp only [exec, execSknp, skipIf_eq]

variable {s}

theorem exec_ldVxK_of_some {k : Fin 16} (h : s.firstKey = some k) :
    exec (.ldVxK x) s = writeV x (BitVec.ofNat 8 k) s := by
  simp only [exec, execLdVxK, h, writeV]

theorem exec_ldVxK_of_none (h : s.firstKey = none) : exec (.ldVxK x) s = .next s := by
  simp only [exec, execLdVxK, h]

end Answers

/-- Behind a checked access of n bytes the addresses still fit in 16 bits (R42, D21). -/
theorem State.toNat_i_add {s : State} {n : Nat} (h : s.base + n ≤ memSize) :
    (s.i + BitVec.ofNat 16 n).toNat = s.i.toNat + n := by
  have hle : s.i.toNat + n ≤ 4096 := h
  rw [BitVec.toNat_add, BitVec.toNat_ofNat]; omega

/-! ### The instructions of one effect -/

/-- The conditional skips (spec/41_skip.md, R105, R106). -/
inductive IsSkip : Instr → Prop
  | seImm (x : Nibble) (nn : Byte) : IsSkip (.seImm x nn)
  | sneImm (x : Nibble) (nn : Byte) : IsSkip (.sneImm x nn)
  | seReg (x y : Nibble) : IsSkip (.seReg x y)
  | sneReg (x y : Nibble) : IsSkip (.sneReg x y)
  | skp (x : Nibble) : IsSkip (.skp x)
  | sknp (x : Nibble) : IsSkip (.sknp x)

/-- The instructions that complete by writing one result to V[x]; `ldVxK` also has another way. -/
inductive LoadsV (x : Nibble) : Instr → Prop
  | ldImm (nn : Byte) : LoadsV x (.ldImm x nn)
  | addImm (nn : Byte) : LoadsV x (.addImm x nn)
  | ldReg (y : Nibble) : LoadsV x (.ldReg x y)
  | or (y : Nibble) : LoadsV x (.or x y)
  | and (y : Nibble) : LoadsV x (.and x y)
  | xor (y : Nibble) : LoadsV x (.xor x y)
  | ldVxDt : LoadsV x (.ldVxDt x)
  | ldVxK : LoadsV x (.ldVxK x)

/-- The instructions that write a flag to VF and then a result to V[x] (R82 to R86). -/
inductive IsFlagAlu (x : Nibble) : Instr → Prop
  | addReg (y : Nibble) : IsFlagAlu x (.addReg x y)
  | sub (y : Nibble) : IsFlagAlu x (.sub x y)
  | shr (y : Nibble) : IsFlagAlu x (.shr x y)
  | subn (y : Nibble) : IsFlagAlu x (.subn x y)
  | shl (y : Nibble) : IsFlagAlu x (.shl x y)

/-! ### The inversion of exec -/

/-- The state an instruction completes in, by the updates it makes; with the check it has passed. -/
inductive CompletesIn (s : State) : Instr → State → Prop
  | cls : CompletesIn s .cls (((s.setGfx blankGfx).setDirty true).setPc (s.pc + 2))
  | ret (h : s.sp ≠ 0) : CompletesIn s .ret (s.drop.setPc (s.drop.stackAtSp + 2))
  | jp (nnn : Addr12) : CompletesIn s (.jp nnn) (s.setPc (addrOf nnn))
  | call (nnn : Addr12) (h : s.sp.toNat < 16) :
      CompletesIn s (.call nnn) ((s.push s.pc).setPc (addrOf nnn))
  | jpV0 (nnn : Addr12) : CompletesIn s (.jpV0 nnn) (s.setPc (zext16 (s.v 0) + addrOf nnn))
  | skip {i : Instr} (hi : IsSkip i) (c : Bool) :
      CompletesIn s i (s.setPc (s.pc + if c then 4 else 2))
  | wait (x : Nibble) : CompletesIn s (.ldVxK x) s
  | load {i : Instr} {x : Nibble} (hi : LoadsV x i) (b : Byte) :
      CompletesIn s i ((s.setV x b).setPc (s.pc + 2))
  | flag {i : Instr} {x : Nibble} (hi : IsFlagAlu x i) (f : Bool) (b : Byte) :
      CompletesIn s i (((s.setV vf (flagByte f)).setV x b).setPc (s.pc + 2))
  | rnd (x : Nibble) (nn b : Byte) (n : Nat) :
      CompletesIn s (.rnd x nn) (((s.setDraws n).setV x b).setPc (s.pc + 2))
  | drw (x y n : Nibble) (g : Gfx) (f : Bool) : CompletesIn s (.drw x y n)
      ((((s.setGfx g).setV vf (flagByte f)).setDirty true).setPc (s.pc + 2))
  | ldI (nnn : Addr12) : CompletesIn s (.ldI nnn) ((s.setI (addrOf nnn)).setPc (s.pc + 2))
  | addI (x : Nibble) (b : Byte)
      (hb : s.cfg.fx1eVf = .writesOverflow → b = flagByte (exceeds12 (s.i.toNat + (s.v x).toNat))) :
      CompletesIn s (.addI x)
        (((s.setI (wrapIndex s.cfg.fx1eWrap (s.i.toNat + (s.v x).toNat))).setV vf b).setPc
          (s.pc + 2))
  | ldF (x : Nibble) : CompletesIn s (.ldF x) ((s.setI (zext16 (s.v x) * 5)).setPc (s.pc + 2))
  | ldB (x : Nibble) (h : s.base + 3 ≤ memSize) : CompletesIn s (.ldB x)
      ((s.storeBytes s.base (decimalDigits (s.v x))).setPc (s.pc + 2))
  | stRegs (x : Nibble) (h : s.base + (x.toNat + 1) ≤ memSize) : CompletesIn s (.stRegs x)
      (((s.storeBytes s.base (s.regsUpTo x)).setI (s.i + BitVec.ofNat 16 (x.toNat + 1))).setPc
        (s.pc + 2))
  | ldRegs (x : Nibble) (h : s.base + (x.toNat + 1) ≤ memSize) : CompletesIn s (.ldRegs x)
      (((s.setRegs (fillRegs s.regs 0 (s.loadBytes s.base (x.toNat + 1)))).setI
        (s.i + BitVec.ofNat 16 (x.toNat + 1))).setPc (s.pc + 2))
  | ldDtVx (x : Nibble) : CompletesIn s (.ldDtVx x) ((s.setDt (s.v x)).setPc (s.pc + 2))
  | ldStVx (x : Nibble) : CompletesIn s (.ldStVx x) ((s.setSt (s.v x)).setPc (s.pc + 2))

/-- A checked access of at least one byte answers a next state only inside the memory. -/
theorem inBounds_next_of_pos {a n : Nat} {k : Result} {t : State} (hn : n ≠ 0)
    (h : inBounds a n k = .next t) : a + n ≤ memSize ∧ k = .next t := by
  obtain ⟨h0 | h0, hk⟩ := inBounds_next h
  · exact absurd h0 hn
  · exact ⟨h0, hk⟩

theorem writeV_next {x : Nibble} {b : Byte} {i : Instr} {s t : State} (hi : LoadsV x i)
    (h : writeV x b s = .next t) : CompletesIn s i t := by
  cases h; exact .load hi b

theorem flagThenResult_next {flag : Byte → Byte → Bool} {result : Byte → Byte → Byte}
    {x y : Nibble} {i : Instr} {s t : State} (hi : IsFlagAlu x i)
    (h : flagThenResult flag result x y s = .next t) : CompletesIn s i t := by
  rw [flagThenResult_eq] at h
  cases h; exact .flag hi _ _

theorem skipIf_next {c : Bool} {i : Instr} {s t : State} (hi : IsSkip i)
    (h : skipIf c s = .next t) : CompletesIn s i t := by
  rw [skipIf_eq] at h
  cases h; exact .skip hi c

/-- Everything an instruction that completes can have done. -/
theorem exec_next {i : Instr} {s t : State} (h : exec i s = .next t) : CompletesIn s i t := by
  cases i
  case cls => cases h; exact .cls
  case ret =>
    by_cases hsp : s.sp = 0
    · rw [exec_ret_of_empty hsp] at h; cases h
    · rw [exec_ret_of_ne hsp] at h; cases h; exact .ret hsp
  case jp nnn => cases h; exact .jp nnn
  case call nnn =>
    by_cases hsp : s.sp.toNat < 16
    · rw [exec_call_of_lt nnn hsp] at h; cases h; exact .call nnn hsp
    · rw [exec_call_of_full nnn (Nat.le_of_not_lt hsp)] at h; cases h
  case jpV0 nnn => cases h; exact .jpV0 nnn
  case seImm x nn => exact skipIf_next (.seImm x nn) h
  case sneImm x nn => exact skipIf_next (.sneImm x nn) h
  case seReg x y => exact skipIf_next (.seReg x y) h
  case sneReg x y => exact skipIf_next (.sneReg x y) h
  case skp x =>
    rw [exec_skp] at h
    obtain ⟨down, h⟩ := withKey_next h
    cases h; exact .skip (.skp x) down
  case sknp x =>
    rw [exec_sknp] at h
    obtain ⟨down, h⟩ := withKey_next h
    cases h; exact .skip (.sknp x) (!down)
  case ldImm x nn => exact writeV_next (.ldImm nn) h
  case addImm x nn => exact writeV_next (.addImm nn) h
  case ldReg x y => exact writeV_next (.ldReg y) h
  case or x y => exact writeV_next (.or y) h
  case and x y => exact writeV_next (.and y) h
  case xor x y => exact writeV_next (.xor y) h
  case ldVxDt x => exact writeV_next .ldVxDt h
  case ldVxK x =>
    cases hk : s.firstKey with
    | none => rw [exec_ldVxK_of_none x hk] at h; cases h; exact .wait x
    | some k => rw [exec_ldVxK_of_some x hk] at h; exact writeV_next .ldVxK h
  case addReg x y => exact flagThenResult_next (.addReg y) ((exec_addReg x y s).symm.trans h)
  case sub x y => exact flagThenResult_next (.sub y) ((exec_sub x y s).symm.trans h)
  case shr x y => exact flagThenResult_next (.shr y) ((exec_shr x y s).symm.trans h)
  case subn x y => exact flagThenResult_next (.subn y) ((exec_subn x y s).symm.trans h)
  case shl x y => exact flagThenResult_next (.shl y) ((exec_shl x y s).symm.trans h)
  case rnd x nn => cases h; exact .rnd x nn _ _
  case drw x y n =>
    obtain ⟨-, h⟩ := inBounds_next h
    cases h; exact .drw x y n _ _
  case ldI nnn => cases h; exact .ldI nnn
  case addI x =>
    obtain ⟨b, hexec, hb, -⟩ := exec_addI x s
    rw [hexec] at h; cases h; exact .addI x b hb
  case ldF x => cases h; exact .ldF x
  case ldB x =>
    rw [exec_ldB] at h
    obtain ⟨hle, h⟩ := inBounds_next_of_pos (by decide) h
    cases h; exact .ldB x hle
  case stRegs x =>
    rw [exec_stRegs] at h
    obtain ⟨hle, h⟩ := inBounds_next_of_pos (Nat.succ_ne_zero _) h
    cases h; exact .stRegs x hle
  case ldRegs x =>
    rw [exec_ldRegs] at h
    obtain ⟨hle, h⟩ := inBounds_next_of_pos (Nat.succ_ne_zero _) h
    cases h; exact .ldRegs x hle
  case ldDtVx x => cases h; exact .ldDtVx x
  case ldStVx x => cases h; exact .ldStVx x

end Sys2Proof.Machine
end

section
/-! PROOF. What no instruction but the named ones can change (spec/10_state.md, spec/20_memory.md):
the statements about the writers of each piece of state, by the inversion of `exec`. -/

namespace Sys2Proof.Machine

/-! ### The special state, memory and the display (R14 to R22) -/

/-- Everything a drop can do: it writes SP. -/
theorem State.drop_eq (s : State) : s.drop = s.setSp (s.sp - 1) := rfl

/-- Settles O54: no update an instruction makes reaches another field than its own, and those of
these fields are the named instructions'. -/
theorem specialStateWriters : Obligations.SpecialStateWriters := by
  intro i s t h
  cases exec_next h
  all_goals simp [State.drop_eq, State.push_eq]

/-- Settles O55: the stores are the only updates of memory, and the blank and the drawn display come
with the dirty flag. -/
theorem memoryAndDisplayWriters : Obligations.MemoryAndDisplayWriters := by
  intro i s t h
  cases exec_next h
  all_goals simp [State.drop_eq, State.push_eq, KeepsMemory]

/-! ### The flag (R11) -/

theorem flagByte_eq_zero_or_one (f : Bool) : flagByte f = 0 ∨ flagByte f = 1 := by
  cases f
  · exact .inl rfl
  · exact .inr rfl

@[simp] theorem State.storeBytes_v (s : State) (a : Nat) (bs : List Byte) (x : Nibble) :
    (s.storeBytes a bs).v x = s.v x := by rw [State.storeBytes_eq_setMem]; rfl

/-- LD Vx, [I] reaches VF only with x = F. -/
theorem vf_fillRegs_loadBytes (s : State) (a : Nat) {x : Nibble} (hx : x ≠ vf) :
    (s.setRegs (fillRegs s.regs 0 (s.loadBytes a (x.toNat + 1)))).v vf = s.v vf := by
  have hlt : ¬ vf.toNat ≤ x.toNat := fun hle =>
    hx (BitVec.eq_of_toNat_eq (Nat.le_antisymm (Nat.le_of_lt_succ x.isLt) hle))
  rw [State.v_fillRegs_loadBytes, if_neg hlt]

/-- Settles O56: a destination is VF or leaves VF alone; what the flag instructions, DRW and ADD I
write to VF is a flag, which the result of a flag instruction overwrites only with x = F. -/
theorem flagWriters : Obligations.FlagWriters := by
  intro i s t h
  cases exec_next h
  case skip c hi => cases hi <;> simp
  case load x b hi =>
    by_cases hx : x = vf
    · subst hx; cases hi <;> simp
    · cases hi <;> simp [Ne.symm hx]
  case flag x f b hi =>
    have hflag : ∀ x', x' ≠ vf → x = x' → (if vf = x then b else flagByte f) = 0 ∨
        (if vf = x then b else flagByte f) = 1 := by
      rintro _ hx rfl
      rw [if_neg hx.symm]; exact flagByte_eq_zero_or_one f
    cases hi <;> simpa using hflag
  case rnd x nn b n =>
    by_cases hx : x = vf
    · simp [hx]
    · simp [Ne.symm hx]
  case drw x y n g f => simpa using flagByte_eq_zero_or_one f
  case addI x b hb =>
    have hflag (hw : s.cfg.fx1eVf = .writesOverflow) : b = 0 ∨ b = 1 :=
      hb hw ▸ flagByte_eq_zero_or_one _
    simpa using hflag
  case ldRegs x hle =>
    by_cases hx : x = vf
    · simp [hx]
    · simp [vf_fillRegs_loadBytes s s.base hx]
  all_goals simp [State.drop_eq, State.push_eq]

end Sys2Proof.Machine
end

section
/-! PROOF. The invariants of R26 (spec/10_state.md section 7): what each update of a piece of state
asks for to keep them, that the instructions and the other transactions meet it, and the induction
over the transactions. -/

namespace Sys2Proof

open Machine

/-! ### The updates that keep the invariants -/

namespace StateInv

variable {s : State}

theorem setV (h : StateInv s) (x : Nibble) (b : Byte) : StateInv (s.setV x b) := { h with }
theorem setRegs (h : StateInv s) (r : Vector Byte 16) : StateInv (s.setRegs r) := { h with }
theorem setDt (h : StateInv s) (n : Byte) : StateInv (s.setDt n) := { h with }
theorem setSt (h : StateInv s) (n : Byte) : StateInv (s.setSt n) := { h with }
theorem setIr (h : StateInv s) (w : Word) : StateInv (s.setIr w) := { h with }
theorem setDirty (h : StateInv s) (b : Bool) : StateInv (s.setDirty b) := { h with }
theorem setGfx (h : StateInv s) (g : Gfx) : StateInv (s.setGfx g) := { h with }
theorem setKeys (h : StateInv s) (k : Vector Bool 16) : StateInv (s.setKeys k) := { h with }
theorem setDraws (h : StateInv s) (n : Nat) : StateInv (s.setDraws n) := { h with }

theorem setPc (h : StateInv s) {a : Word} (ha : a.toNat ≤ 0x10FE) : StateInv (s.setPc a) :=
  { h with pc := ha }

theorem setI (h : StateInv s) {a : Word} (ha : s.cfg.fx1eWrap = .mod4096 → a.toNat ≤ 0x1000) :
    StateInv (s.setI a) :=
  { h with index := ha }

theorem storeBytes (h : StateInv s) {a : Nat} {bs : List Byte}
    (hle : bs = [] ∨ a + bs.length ≤ memSize) : StateInv (s.storeBytes a bs) := by
  rw [State.storeBytes_eq_setMem]
  exact { h with mem := State.storeBytes_wf h.mem hle }

/-- A push with room for it, of an address a fetch succeeded at. -/
theorem push (h : StateInv s) {a : Word} (hsp : s.sp.toNat < 16) (ha : a.toNat ≤ 0x0FFE) :
    StateInv (s.push a) := by
  have hsp' : (s.push a).sp.toNat = s.sp.toNat + 1 := State.push_sp_toNat a hsp
  refine { h with sp := by omega, stack := fun k hk hlt => ?_ }
  by_cases hne : k = s.sp.toNat
  · subst hne
    rw [State.push_stack_at_sp a hsp]; exact ha
  · rw [State.push_stack_of_ne a hk hne]
    exact h.stack k hk (by omega)

theorem drop (h : StateInv s) (hne : s.sp ≠ 0) : StateInv s.drop := by
  have hsp : s.drop.sp.toNat = s.sp.toNat - 1 := State.drop_sp_toNat hne
  have hle := h.sp
  exact { h with sp := by omega, stack := fun k hk hlt => h.stack k hk (by omega) }

/-- What a return pops is a return address. -/
theorem drop_stackAtSp_le (h : StateInv s) (hne : s.sp ≠ 0) :
    s.drop.stackAtSp.toNat ≤ 0x0FFE := by
  have hpos : s.sp.toNat ≠ 0 := fun e => hne (BitVec.eq_of_toNat_eq e)
  have hle := h.sp
  obtain ⟨k, hk⟩ := Nat.exists_eq_succ_of_ne_zero hpos
  rw [State.drop_stackAtSp (by omega) hk]
  exact h.stack k (by omega) (by omega)

end StateInv

/-! ### Where PC and I go (R12 to R14) -/

/-- From an address a fetch succeeds at, PC + 2 and PC + 4 are at most 0x1002. -/
theorem toNat_add_le {a b : Word} (ha : a.toNat ≤ 0x0FFE) (hb : b.toNat ≤ 4) :
    (a + b).toNat ≤ 0x10FE := by
  rw [BitVec.toNat_add]; omega

theorem toNat_addrOf_le (nnn : Addr12) : (addrOf nnn).toNat ≤ 0x0FFF := by
  rw [addrOf_toNat]; exact Nat.le_of_lt_succ nnn.isLt

theorem toNat_zext16_add_addrOf_le (b : Byte) (nnn : Addr12) :
    (zext16 b + addrOf nnn).toNat ≤ 0x10FE := by
  have hb : b.toNat < 256 := b.isLt
  have hn : nnn.toNat < 4096 := nnn.isLt
  rw [BitVec.toNat_add, zext16_toNat, addrOf_toNat]; omega

theorem toNat_wrapIndex_mod4096 (n : Nat) : (wrapIndex .mod4096 n).toNat = n % 4096 := by
  rw [wrapIndex, BitVec.toNat_ofNat]; omega

theorem toNat_wrapIndex_mod4096_le (n : Nat) : (wrapIndex .mod4096 n).toNat ≤ 0x1000 := by
  rw [toNat_wrapIndex_mod4096]; omega

theorem toNat_zext16_mul_five_le (b : Byte) : (zext16 b * 5).toNat ≤ 0x1000 := by
  have hb : b.toNat < 256 := b.isLt
  rw [toNat_zext16_mul_five]; omega

/-! ### Every instruction, and every step -/

/-- An instruction fetched from a state that meets the invariants completes in one. -/
theorem stateInv_of_exec {i : Instr} {s t : State} (h : StateInv s) (hpc : s.pc.toNat ≤ 0x0FFE)
    (he : exec i s = .next t) : StateInv t := by
  have hnext : (s.pc + 2).toNat ≤ 0x10FE := toNat_add_le hpc (by decide)
  cases exec_next he
  case cls => exact ((h.setGfx _).setDirty _).setPc hnext
  case ret hne =>
    exact (h.drop hne).setPc (toNat_add_le (h.drop_stackAtSp_le hne) (by decide))
  case jp nnn => exact h.setPc ((toNat_addrOf_le nnn).trans (by decide))
  case call nnn hsp => exact (h.push hsp hpc).setPc ((toNat_addrOf_le nnn).trans (by decide))
  case jpV0 nnn => exact h.setPc (toNat_zext16_add_addrOf_le _ nnn)
  case skip c hi => exact h.setPc (toNat_add_le hpc (by cases c <;> decide))
  case wait x => exact h
  case load x b hi => exact (h.setV x b).setPc hnext
  case flag x f b hi => exact ((h.setV vf _).setV x b).setPc hnext
  case rnd x nn b n => exact ((h.setDraws n).setV x b).setPc hnext
  case drw x y n g f => exact (((h.setGfx g).setV vf _).setDirty true).setPc hnext
  case ldI nnn => exact (h.setI fun _ => (toNat_addrOf_le nnn).trans (by decide)).setPc hnext
  case addI x b hb =>
    exact ((h.setI fun hw => hw ▸ toNat_wrapIndex_mod4096_le _).setV vf b).setPc hnext
  case ldF x => exact (h.setI fun _ => toNat_zext16_mul_five_le _).setPc hnext
  case ldB x hle => exact (h.storeBytes (.inr hle)).setPc hnext
  case stRegs x hle =>
    have hi : (s.i + BitVec.ofNat 16 (x.toNat + 1)).toNat ≤ 0x1000 := State.toNat_i_add hle ▸ hle
    have hst : s.base + (s.regsUpTo x).length ≤ memSize := s.length_regsUpTo x ▸ hle
    exact ((h.storeBytes (.inr hst)).setI fun _ => hi).setPc hnext
  case ldRegs x hle =>
    have hi : (s.i + BitVec.ofNat 16 (x.toNat + 1)).toNat ≤ 0x1000 := State.toNat_i_add hle ▸ hle
    exact ((h.setRegs _).setI fun _ => hi).setPc hnext
  case ldDtVx x => exact (h.setDt _).setPc hnext
  case ldStVx x => exact (h.setSt _).setPc hnext

/-- Settles O58: a step that answers a next state has fetched, so PC was at most 0x0FFE, and the
instruction it runs keeps the invariants. -/
theorem stepKeepsInv : Obligations.StepKeepsInv := by
  intro s t h hstep
  obtain ⟨w, i, hf, -, he⟩ := step_next hstep
  exact stateInv_of_exec (h.setIr w) (fetchWord_ok hf).1 he

/-! ### Reset and the other transactions -/

theorem stateInv_reset (cfg : Config) : StateInv { State.reset with cfg := cfg } where
  mem := Memory.wf_nil cfg.font
  sp := Nat.zero_le 16
  stack := fun _ _ hlt => absurd hlt (Nat.not_lt_zero _)
  pc := (by decide : resetPc.toNat ≤ 0x10FE)
  index := fun _ => Nat.zero_le 0x1000

/-- Settles O57: reset with the default parameters. -/
theorem invHoldsAtReset : Obligations.InvHoldsAtReset := stateInv_reset defaultConfig

theorem stateInv_afterCycle {s : State} (h : StateInv s) : StateInv (afterCycle s) := by
  cases hstep : step s with
  | next t => rw [afterCycle_of_next hstep]; exact stepKeepsInv s t h hstep
  | refused r => exact absurd hstep (step_ne_refused s r)
  | fault f =>
    cases hf : fetchWord s with
    | ok w => rw [afterCycle_of_fault hstep hf]; exact h.setIr w
    | error e => rw [afterCycle_of_fetch_error hf]; exact h

theorem stateInv_load {s : State} (h : StateInv s) (image : List Byte) :
    StateInv (s.load image) := by
  unfold State.load
  split
  case isTrue hfits =>
    have hlen : image.length ≤ 3584 := of_decide_eq_true hfits
    have hle : 0x200 + image.length ≤ 4096 := by omega
    exact h.storeBytes (.inr hle)
  case isFalse => exact h

/-- Every transaction keeps the invariants; `Init` restores them. -/
theorem stateInv_run {s : State} (m : Transaction) (h : StateInv s) : StateInv (m.run s) := by
  cases m with
  | init => exact (stateInv_reset s.cfg).setDraws s.draws
  | load image => exact stateInv_load h image
  | cycle => exact stateInv_afterCycle h
  | tick => exact (h.setDt _).setSt _
  | setKey k b => exact h.setKeys _
  | readDisplay => exact h
  | clearDirty => exact h.setDirty false

/-- Settles O59: by induction over the transactions. -/
theorem reachableHasInv : Obligations.ReachableHasInv := by
  intro s hs
  induction hs with
  | init cfg => exact stateInv_reset cfg
  | run m s _ ih => exact stateInv_run m ih

end Sys2Proof
end

section
/-! PROOF. The cycle (spec/30_encoding.md section 1, spec/60_exceptions.md,
spec/70_reset_and_hazards.md): the fetch and the decode of a step, the jump to itself, and errors,
which come again because no check looks at what a host may change. -/

namespace Sys2Proof.Machine

/-! ### Fetch, decode, run (R45, R46) -/

/-- Two bytes that decode make a word that decodes. -/
theorem decodeWord_of_decode {p : AnnnPolicy} {hi lo : Byte} {i : Instr} {rest : List Byte}
    (h : decode p [hi, lo] = .ok (i, rest)) : decodeWord p (wordOfBytes hi lo) = some i := by
  cases hd : decodeWord p (wordOfBytes hi lo) with
  | none => simp [decode, hd] at h
  | some j => simp [decode, hd] at h; rw [h.1]

/-- Settles O8: the word of the two bytes is fetched, and it decodes. -/
theorem stepRunsDecodedInstruction : Obligations.StepRunsDecodedInstruction :=
  fun _ _ hpc hd => ⟨_, toNat_wordOfBytes _ _,
    step_of_decode (fetchWord_of_le hpc) (decodeWord_of_decode hd)⟩

/-- Settles O9: the fetch fails before anything is written, and the lowest address outside is
0x1000, or PC itself when that is outside. -/
theorem fetchOutsideMemoryFaults : Obligations.FetchOutsideMemoryFaults := by
  intro s hpc
  have hf := fetchWord_of_gt hpc
  have hmax : max s.pc.toNat memSize = if s.pc.toNat = 0x0FFF then 0x1000 else s.pc.toNat := by
    have := memSize_eq
    split <;> omega
  exact ⟨hmax ▸ step_of_fetch_error hf, afterCycle_of_fetch_error hf⟩

/-! ### The jump to itself (R156) -/

/-- The word at PC of an idle state is the jump to PC. -/
theorem decodeWord_of_idle {s : State} {w : Word} (hpc : s.pc.toNat ≤ 0x0FFE)
    (hw : w.toNat = 0x1000 + s.pc.toNat) :
    decodeWord s.cfg.annn w = some (.jp (BitVec.ofNat 12 s.pc.toNat)) := by
  refine hasWord_jp _ _ w ?_
  rw [hw, BitVec.toNat_ofNat, Nat.mod_eq_of_lt (by omega)]

/-- Settles O12: the jump writes PC back to itself, so that IR is all the cycle changes; setting IR
to what it holds changes nothing. -/
theorem idleIsFixedPoint : Obligations.IdleIsFixedPoint := by
  rintro s ⟨hpc, hbytes⟩
  obtain ⟨w, hw⟩ : ∃ w : Word, w.toNat = 0x1000 + s.pc.toNat :=
    ⟨BitVec.ofNat 16 (0x1000 + s.pc.toNat), by rw [BitVec.toNat_ofNat]; omega⟩
  have htarget : addrOf (BitVec.ofNat 12 s.pc.toNat) = s.pc := by
    apply BitVec.eq_of_toNat_eq
    rw [addrOf_toNat, BitVec.toNat_ofNat, Nat.mod_eq_of_lt (by omega)]
  have hstep : step s = .next (s.setIr w) := by
    rw [step_of_decode (fetchWord_of_toNat hpc (hw.trans hbytes.symm)) (decodeWord_of_idle hpc hw),
      exec_jp, htarget]
    rfl
  refine ⟨⟨w, hw, hstep⟩, fun hir => ?_⟩
  have hsame : w = s.ir := BitVec.eq_of_toNat_eq (hw.trans hir.symm)
  rw [hstep, hsame]
  rfl

/-! ### What an instruction that raises has found (R115) -/

/-- A checked access raises only where it would leave the memory (R36). -/
theorem inBounds_fault {a n : Nat} {t : State} {f : Fault} (h : inBounds a n (.next t) = .fault f) :
    n ≠ 0 ∧ memSize < a + n ∧ f = .memoryOutOfBounds (max a memSize) := by
  by_cases hin : n = 0 ∨ a + n ≤ memSize
  · rw [inBounds_of_le _ hin] at h
    cases h
  · obtain ⟨hn, hgt⟩ := not_or.1 hin
    rw [inBounds_of_gt _ hn (Nat.lt_of_not_le hgt)] at h
    cases h
    exact ⟨hn, Nat.lt_of_not_le hgt, rfl⟩

/-- A key number raises only under `KEY_INDEX_POLICY` = `fault` and above 15 (R105). -/
theorem withKey_fault {s : State} {v : Byte} {t : Bool → State} {f : Fault}
    (h : withKey s v (fun down => .next (t down)) = .fault f) :
    s.cfg.keyIndex = .fault ∧ 16 ≤ v.toNat ∧ f = .invalidKeyIndex v := by
  cases hp : s.cfg.keyIndex with
  | mask4 =>
    rw [withKey_mask4 _ hp] at h
    cases h
  | fault =>
    by_cases hlt : v.toNat < 16
    · rw [withKey_of_lt _ hlt] at h
      cases h
    · rw [withKey_of_ge _ hp (Nat.le_of_not_lt hlt)] at h
      cases h
      exact ⟨rfl, Nat.le_of_not_lt hlt, rfl⟩

/-- The error of an instruction, by the check that fails. -/
inductive Raises (s : State) : Instr → Fault → Prop
  | ret (h : s.sp = 0) : Raises s .ret .stackUnderflow
  | call (nnn : Addr12) (h : 16 ≤ s.sp.toNat) : Raises s (.call nnn) .stackOverflow
  | drw (x y n : Nibble) (hn : n.toNat ≠ 0) (h : memSize < s.base + n.toNat) :
      Raises s (.drw x y n) (.memoryOutOfBounds (max s.base memSize))
  | ldB (x : Nibble) (h : memSize < s.base + 3) :
      Raises s (.ldB x) (.memoryOutOfBounds (max s.base memSize))
  | stRegs (x : Nibble) (h : memSize < s.base + (x.toNat + 1)) :
      Raises s (.stRegs x) (.memoryOutOfBounds (max s.base memSize))
  | ldRegs (x : Nibble) (h : memSize < s.base + (x.toNat + 1)) :
      Raises s (.ldRegs x) (.memoryOutOfBounds (max s.base memSize))
  | skp (x : Nibble) (hp : s.cfg.keyIndex = .fault) (h : 16 ≤ (s.v x).toNat) :
      Raises s (.skp x) (.invalidKeyIndex (s.v x))
  | sknp (x : Nibble) (hp : s.cfg.keyIndex = .fault) (h : 16 ≤ (s.v x).toNat) :
      Raises s (.sknp x) (.invalidKeyIndex (s.v x))

/-- Everything an instruction that raises can have found. -/
theorem exec_fault {i : Instr} {s : State} {f : Fault} (h : exec i s = .fault f) :
    Raises s i f := by
  cases i
  case ret =>
    by_cases hsp : s.sp = 0
    · rw [exec_ret_of_empty hsp] at h; cases h; exact .ret hsp
    · rw [exec_ret_of_ne hsp] at h; cases h
  case call nnn =>
    by_cases hsp : 16 ≤ s.sp.toNat
    · rw [exec_call_of_full nnn hsp] at h; cases h; exact .call nnn hsp
    · rw [exec_call_of_lt nnn (Nat.lt_of_not_le hsp)] at h; cases h
  case drw x y n =>
    rw [exec_drw] at h
    obtain ⟨hn, hgt, rfl⟩ := inBounds_fault h
    exact .drw x y n hn hgt
  case ldB x =>
    rw [exec_ldB] at h
    obtain ⟨-, hgt, rfl⟩ := inBounds_fault h
    exact .ldB x hgt
  case stRegs x =>
    rw [exec_stRegs] at h
    obtain ⟨-, hgt, rfl⟩ := inBounds_fault h
    exact .stRegs x hgt
  case ldRegs x =>
    rw [exec_ldRegs] at h
    obtain ⟨-, hgt, rfl⟩ := inBounds_fault h
    exact .ldRegs x hgt
  case skp x =>
    rw [exec_skp] at h
    obtain ⟨hp, hge, rfl⟩ := withKey_fault h
    exact .skp x hp hge
  case sknp x =>
    rw [exec_sknp] at h
    obtain ⟨hp, hge, rfl⟩ := withKey_fault h
    exact .sknp x hp hge
  case ldVxK x =>
    cases hk : s.firstKey with
    | none => rw [exec_ldVxK_of_none x hk] at h; cases h
    | some k => rw [exec_ldVxK_of_some x hk] at h; cases h
  all_goals cases h

/-- A check that fails raises. -/
theorem exec_of_raises {i : Instr} {s : State} {f : Fault} (h : Raises s i f) :
    exec i s = .fault f := by
  cases h with
  | ret h => exact exec_ret_of_empty h
  | call nnn h => exact exec_call_of_full nnn h
  | drw x y n hn h => exact inBounds_of_gt _ hn h
  | ldB x h => exact inBounds_of_gt _ (by decide) h
  | stRegs x h => exact inBounds_of_gt _ (Nat.succ_ne_zero _) h
  | ldRegs x h => exact inBounds_of_gt _ (Nat.succ_ne_zero _) h
  | skp x hp h => rw [exec_skp, withKey_of_ge _ hp h]
  | sknp x hp h => rw [exec_sknp, withKey_of_ge _ hp h]

/-! ### Errors come again (R121, R126) -/

/-- Two states alike in everything a fetch, a decode or a check of an instruction looks at. -/
structure SameChecks (s t : State) : Prop where
  regs : t.regs = s.regs
  i : t.i = s.i
  pc : t.pc = s.pc
  sp : t.sp = s.sp
  mem : t.mem = s.mem
  cfg : t.cfg = s.cfg

namespace SameChecks

variable {s t : State}

theorem v (h : SameChecks s t) (x : Nibble) : t.v x = s.v x := by
  simp only [State.v, h.regs]

theorem base (h : SameChecks s t) : t.base = s.base := by
  simp only [State.base, h.i]

theorem readByte (h : SameChecks s t) (a : Nat) : t.readByte a = s.readByte a := by
  simp only [State.readByte, h.mem, h.cfg]

theorem fetchWord (h : SameChecks s t) : fetchWord t = fetchWord s := by
  simp only [Machine.fetchWord, h.pc, h.readByte]

theorem setIr (h : SameChecks s t) (w : Word) : SameChecks (s.setIr w) (t.setIr w) := { h with }

theorem raises {i : Instr} {f : Fault} (h : SameChecks s t) (hf : Raises s i f) : Raises t i f := by
  cases hf with
  | ret hsp => exact .ret (h.sp ▸ hsp)
  | call nnn hsp => exact .call nnn (h.sp ▸ hsp)
  | drw x y n hn hgt => exact h.base ▸ .drw x y n hn (h.base ▸ hgt)
  | ldB x hgt => exact h.base ▸ .ldB x (h.base ▸ hgt)
  | stRegs x hgt => exact h.base ▸ .stRegs x (h.base ▸ hgt)
  | ldRegs x hgt => exact h.base ▸ .ldRegs x (h.base ▸ hgt)
  | skp x hp hge => exact h.v x ▸ .skp x (h.cfg ▸ hp) (h.v x ▸ hge)
  | sknp x hp hge => exact h.v x ▸ .sknp x (h.cfg ▸ hp) (h.v x ▸ hge)

/-- An error comes again in every state the checks cannot tell from the one it came in. -/
theorem step_fault {f : Fault} (h : SameChecks s t) (hf : step s = .fault f) :
    step t = .fault f := by
  cases hw : Machine.fetchWord s with
  | error e =>
    rw [step_of_fetch_error hw] at hf
    rw [step_of_fetch_error (h.fetchWord.trans hw), hf]
  | ok w =>
    have hw' := h.fetchWord.trans hw
    cases hd : decodeWord s.cfg.annn w with
    | none =>
      rw [step_of_unrecognized hw hd] at hf
      rw [step_of_unrecognized hw' (h.cfg ▸ hd), hf]
    | some i =>
      rw [step_of_decode hw hd] at hf
      rw [step_of_decode hw' (h.cfg ▸ hd)]
      exact exec_of_raises ((h.setIr w).raises (exec_fault hf))

end SameChecks

/-- After an error IR holds what was fetched, if anything was, and all else is as before. -/
theorem afterCycle_of_error {s : State} {f : Fault} (h : step s = .fault f) :
    ∃ w, afterCycle s = s.setIr w ∧ ∀ u, fetchWord s = .ok u → w = u := by
  cases hf : fetchWord s with
  | ok u => exact ⟨u, afterCycle_of_fault h hf, fun u' hu => Except.ok.inj hu⟩
  | error e => exact ⟨s.ir, afterCycle_of_fetch_error hf, nofun⟩

theorem sameChecks_afterCycle {s : State} {f : Fault} (h : step s = .fault f) :
    SameChecks s (afterCycle s) := by
  obtain ⟨w, hw, -⟩ := afterCycle_of_error h
  rw [hw]
  exact ⟨rfl, rfl, rfl, rfl, rfl, rfl⟩

theorem sameChecks_run {s : State} {f : Fault} (h : step s = .fault f) {m : Transaction}
    (hm : LeavesError m) : SameChecks s (m.run s) := by
  obtain rfl | rfl | rfl | rfl | ⟨k, b, rfl⟩ := hm
  · exact sameChecks_afterCycle h
  all_goals exact ⟨rfl, rfl, rfl, rfl, rfl, rfl⟩

/-- Settles O11: an error writes IR alone, which no check looks at, and neither do the transactions
in question write anything that one looks at. -/
theorem errorsArePreciseAndRepeat : Obligations.ErrorsArePreciseAndRepeat := by
  intro s f h
  obtain ⟨w, hafter, hw⟩ := afterCycle_of_error h
  have hagain : step (afterCycle s) = .fault f := (sameChecks_afterCycle h).step_fault h
  refine ⟨?_, fun u hu => ?_, fun m hm => (sameChecks_run hagain hm).step_fault hagain⟩
  · rw [hafter]; rfl
  · rw [hafter]; exact hw u hu

end Sys2Proof.Machine
end

section
/-! PROOF. What no cycle can observe (spec/10_state.md section 3): the dirty flag, and the stack
entries at SP and above. Both are shown by one argument, that a cycle from two states that differ
only there has one outcome. -/

namespace Sys2Proof.Machine

/-! ### Two results that differ only as related states do -/

/-- Both complete, in related states, or both raise the same error. -/
inductive Alike (R : State → State → Prop) : Result → Result → Prop
  | next {t t' : State} (h : R t t') : Alike R (.next t) (.next t')
  | fault (f : Fault) : Alike R (.fault f) (.fault f)

namespace Alike

variable {R S : State → State → Prop} {r r' : Result}

theorem mono (h : Alike R r r') (hRS : ∀ t t', R t t' → S t t') : Alike S r r' := by
  cases h with
  | next h => exact .next (hRS _ _ h)
  | fault f => exact .fault f

theorem inBounds (h : Alike R r r') (a n : Nat) :
    Alike R (inBounds a n r) (inBounds a n r') := by
  unfold Machine.inBounds
  split
  · exact h
  · exact .fault _

theorem withKey {s s' : State} {k k' : Bool → Result} (hcfg : s'.cfg = s.cfg)
    (hkeys : s'.keys = s.keys) (h : ∀ down, Alike R (k down) (k' down)) (b : Byte) :
    Alike R (withKey s b k) (withKey s' b k') := by
  unfold Machine.withKey
  rw [hcfg, hkeys]
  split
  · split
    · exact h _
    · exact .fault _
  · exact h _

end Alike

/-- If the fetch cannot tell two related states apart and every instruction answers alike from them,
so does the cycle. -/
theorem cycle_of_alike {R : State → State → Prop} {s s' : State} (hf : fetchWord s' = fetchWord s)
    (hcfg : s'.cfg = s.cfg) (hR : R s s') (hir : ∀ w, R (s.setIr w) (s'.setIr w))
    (hexec : ∀ i w, Alike R (exec i (s.setIr w)) (exec i (s'.setIr w))) :
    cycleResponse s' = cycleResponse s ∧ R (afterCycle s) (afterCycle s') := by
  have hfault {f : Fault} (h : step s = .fault f) (h' : step s' = .fault f) :
      cycleResponse s' = cycleResponse s := by
    simp only [cycleResponse, h, h']
  cases hw : fetchWord s with
  | error f =>
    have hw' := hf.trans hw
    refine ⟨hfault (step_of_fetch_error hw) (step_of_fetch_error hw'), ?_⟩
    rw [afterCycle_of_fetch_error hw, afterCycle_of_fetch_error hw']
    exact hR
  | ok w =>
    have hw' := hf.trans hw
    cases hd : decodeWord s.cfg.annn w with
    | none =>
      have h := step_of_unrecognized hw hd
      have h' := step_of_unrecognized hw' (hcfg ▸ hd)
      refine ⟨hfault h h', ?_⟩
      rw [afterCycle_of_fault h hw, afterCycle_of_fault h' hw']
      exact hir w
    | some i =>
      have halike : Alike R (step s) (step s') := by
        rw [step_of_decode hw hd, step_of_decode hw' (hcfg ▸ hd)]
        exact hexec i w
      generalize hr : step s = r at halike
      generalize hr' : step s' = r' at halike
      cases halike with
      | next h =>
        refine ⟨by simp only [cycleResponse, hr, hr'], ?_⟩
        rw [afterCycle_of_next hr, afterCycle_of_next hr']
        exact h
      | fault f =>
        refine ⟨hfault hr hr', ?_⟩
        rw [afterCycle_of_fault hr hw, afterCycle_of_fault hr' hw']
        exact hir w

/-! ### Another stack and another dirty flag -/

theorem storeBytes_setStack_setDirty (s : State) (k : Vector Word 16) (d : Bool) (a : Nat)
    (bs : List Byte) : ((s.setStack k).setDirty d).storeBytes a bs
      = ((s.storeBytes a bs).setStack k).setDirty d := by
  induction bs generalizing s a with
  | nil => rfl
  | cons b bs ih => exact ih (s.storeByte a b) (a + 1)

/-- How the next states of an instruction from a state and from the same with another stack and
dirty flag are related: the stack is carried along, the dirty flag too unless it is written. -/
def CarriesStackAndDirty (s : State) (k : Vector Word 16) (d : Bool) (t t' : State) : Prop :=
  t.stack = s.stack ∧ t.sp = s.sp ∧
    (t.dirty = s.dirty ∧ t' = (t.setStack k).setDirty d ∨ t' = t.setStack k)

theorem exec_setStack_setDirty (s : State) (k : Vector Word 16) (d : Bool) {i : Instr}
    (hret : i ≠ .ret) (hcall : ∀ nnn, i ≠ .call nnn) :
    Alike (CarriesStackAndDirty s k d) (exec i s) (exec i ((s.setStack k).setDirty d)) := by
  cases i
  case ret => exact absurd rfl hret
  case call nnn => exact absurd rfl (hcall nnn)
  case cls => exact .next ⟨rfl, rfl, .inr rfl⟩
  case drw x y n => exact .inBounds (.next ⟨rfl, rfl, .inr rfl⟩) _ _
  case ldB x =>
    rw [exec_ldB, exec_ldB, storeBytes_setStack_setDirty]
    refine .inBounds (.next ⟨?_, ?_, .inl ⟨?_, rfl⟩⟩) _ _ <;> simp
  case stRegs x =>
    rw [exec_stRegs, exec_stRegs, storeBytes_setStack_setDirty]
    refine .inBounds (.next ⟨?_, ?_, .inl ⟨?_, rfl⟩⟩) _ _ <;> simp
  case ldRegs x => exact .inBounds (.next ⟨rfl, rfl, .inl ⟨rfl, rfl⟩⟩) _ _
  case skp x =>
    rw [exec_skp, exec_skp]
    refine .withKey (s := s) (s' := (s.setStack k).setDirty d) rfl rfl (fun down => ?_) (s.v x)
    exact .next ⟨rfl, rfl, .inl ⟨rfl, rfl⟩⟩
  case sknp x =>
    rw [exec_sknp, exec_sknp]
    refine .withKey (s := s) (s' := (s.setStack k).setDirty d) rfl rfl (fun down => ?_) (s.v x)
    exact .next ⟨rfl, rfl, .inl ⟨rfl, rfl⟩⟩
  case ldVxK x =>
    cases hk : s.firstKey with
    | none =>
      rw [exec_ldVxK_of_none x hk, exec_ldVxK_of_none x (s := (s.setStack k).setDirty d) hk]
      exact .next ⟨rfl, rfl, .inl ⟨rfl, rfl⟩⟩
    | some key =>
      rw [exec_ldVxK_of_some x hk, exec_ldVxK_of_some x (s := (s.setStack k).setDirty d) hk]
      exact .next ⟨rfl, rfl, .inl ⟨rfl, rfl⟩⟩
  case addI x =>
    simp only [exec, execAddI, reportOverflow_eq]
    exact .next ⟨rfl, rfl, .inl ⟨rfl, rfl⟩⟩
  all_goals exact .next ⟨rfl, rfl, .inl ⟨rfl, rfl⟩⟩

/-! ### The dirty flag (R19) -/

/-- The two states are the same but for the dirty flag. -/
def SameButDirty (s s' : State) : Prop := s'.setDirty false = s.setDirty false

theorem exec_setDirty (s : State) (b : Bool) (i : Instr) :
    Alike SameButDirty (exec i s) (exec i (s.setDirty b)) := by
  by_cases hret : i = .ret
  · subst hret
    by_cases hsp : s.sp = 0
    · rw [exec_ret_of_empty hsp, exec_ret_of_empty (s := s.setDirty b) hsp]
      exact .fault _
    · rw [exec_ret_of_ne hsp, exec_ret_of_ne (s := s.setDirty b) hsp]
      exact .next rfl
  by_cases hcall : ∃ nnn, i = .call nnn
  · obtain ⟨nnn, rfl⟩ := hcall
    by_cases hsp : 16 ≤ s.sp.toNat
    · rw [exec_call_of_full nnn hsp, exec_call_of_full nnn (s := s.setDirty b) hsp]
      exact .fault _
    · rw [exec_call_of_lt nnn (Nat.lt_of_not_le hsp),
        exec_call_of_lt nnn (s := s.setDirty b) (Nat.lt_of_not_le hsp)]
      exact .next rfl
  refine (exec_setStack_setDirty s s.stack b hret fun nnn h => hcall ⟨nnn, h⟩).mono fun t t' h => ?_
  obtain ⟨hstack, -, h⟩ := h
  rw [← hstack] at h
  obtain ⟨-, rfl⟩ | rfl := h <;> rfl

/-- Settles O52: the fetch does not look at the flag, and every instruction answers alike whatever
it is. -/
theorem dirtyIsNeverRead : Obligations.DirtyIsNeverRead := fun s b =>
  cycle_of_alike (R := SameButDirty) (s' := s.setDirty b) rfl rfl rfl (fun _ => rfl)
    fun i w => exec_setDirty (s.setIr w) b i

/-! ### The entries at SP and above (R15, R16) -/

section Stale

variable {s : State} {k : Vector Word 16}

/-- A return reads the same address from two stacks that agree below SP. -/
theorem drop_stackAtSp_setStack (hsp : s.sp ≠ 0)
    (hk : ∀ j, (h : j < 16) → j < s.sp.toNat → k[j] = s.stack[j]) :
    (s.setStack k).drop.stackAtSp = s.drop.stackAtSp := by
  have hpos : s.sp.toNat ≠ 0 := fun e => hsp (BitVec.eq_of_toNat_eq e)
  obtain ⟨j, hj⟩ := Nat.exists_eq_succ_of_ne_zero hpos
  by_cases hlt : j < 16
  · rw [State.drop_stackAtSp hlt hj, State.drop_stackAtSp (s := s.setStack k) hlt hj]
    exact hk j hlt (by omega)
  · have habove : 16 < s.sp.toNat := by omega
    rw [State.drop_stackAtSp_above habove, State.drop_stackAtSp_above (s := s.setStack k) habove]
    rfl

/-- Two stacks that agree below SP agree below SP + 1 once the same address is pushed on both. -/
theorem agreeBelowSp_push (a : Word) (hsp : s.sp.toNat < 16)
    (hk : ∀ j, (h : j < 16) → j < s.sp.toNat → k[j] = s.stack[j]) :
    AgreeBelowSp (s.push a) ((s.setStack k).push a) := by
  refine ⟨rfl, fun j hj hlt => ?_⟩
  rw [State.push_sp_toNat a hsp] at hlt
  by_cases hne : j = s.sp.toNat
  · subst hne
    rw [State.push_stack_at_sp a hsp]
    exact State.push_stack_at_sp (s := s.setStack k) a hsp
  · rw [State.push_stack_of_ne a hj hne, State.push_stack_of_ne (s := s.setStack k) a hj hne]
    exact hk j hj (by omega)

theorem exec_setStack (hk : ∀ j, (h : j < 16) → j < s.sp.toNat → k[j] = s.stack[j]) (i : Instr) :
    Alike AgreeBelowSp (exec i s) (exec i (s.setStack k)) := by
  by_cases hret : i = .ret
  · subst hret
    by_cases hsp : s.sp = 0
    · rw [exec_ret_of_empty hsp, exec_ret_of_empty (s := s.setStack k) hsp]
      exact .fault _
    · rw [exec_ret_of_ne hsp, exec_ret_of_ne (s := s.setStack k) hsp,
        drop_stackAtSp_setStack hsp hk]
      refine .next ⟨rfl, fun j hj hlt => hk j hj (Nat.lt_of_lt_of_le hlt ?_)⟩
      exact State.drop_sp_toNat hsp ▸ Nat.sub_le _ _
  by_cases hcall : ∃ nnn, i = .call nnn
  · obtain ⟨nnn, rfl⟩ := hcall
    by_cases hsp : 16 ≤ s.sp.toNat
    · rw [exec_call_of_full nnn hsp, exec_call_of_full nnn (s := s.setStack k) hsp]
      exact .fault _
    · have hlt := Nat.lt_of_not_le hsp
      rw [exec_call_of_lt nnn hlt, exec_call_of_lt nnn (s := s.setStack k) hlt]
      obtain ⟨hrest, hbelow⟩ := agreeBelowSp_push s.pc hlt hk
      exact .next ⟨rfl, hbelow⟩
  refine (exec_setStack_setDirty s k s.dirty hret fun nnn h => hcall ⟨nnn, h⟩).mono fun t t' h => ?_
  obtain ⟨hstack, hsp, h⟩ := h
  have ht' : t' = t.setStack k := by
    obtain ⟨hdirty, rfl⟩ | rfl := h
    · rw [← hdirty]; rfl
    · rfl
  rw [ht']
  exact ⟨rfl, fun j hj hlt => (hk j hj (hsp ▸ hlt)).trans (by simp only [hstack])⟩

end Stale

/-- Settles O53: the fetch does not look at the stack, RET reads below SP, CALL writes the entry at
SP over, and every other instruction carries the stack along. -/
theorem staleEntriesUnobservable : Obligations.StaleEntriesUnobservable := by
  intro s s' h
  obtain ⟨hrest, hbelow⟩ := h
  obtain ⟨k, rfl⟩ : ∃ k, s' = s.setStack k := ⟨s'.stack, hrest⟩
  exact cycle_of_alike rfl rfl ⟨rfl, hbelow⟩ (fun _ => ⟨rfl, hbelow⟩)
    fun i w => exec_setStack (s := s.setIr w) hbelow i

end Sys2Proof.Machine
end

section
/-! PROOF. Drawing (spec/44_display.md): which cells DRW flips and when it reports a collision, in
terms of the bits of the sprite, and the statements about one draw and two. -/

namespace Sys2Proof.Machine

/-! ### The cells of the sprite (R102, R103) -/

section Drawn

variable {s : State} {x y n : Nibble} {row : Fin 32} {col : Fin 64}

theorem mem_spriteCells_iff : (row, col) ∈ spriteCells (s.v x).toNat (s.v y).toNat 0
    (s.loadBytes s.base n.toNat) ↔ SpriteBit s x y n row col := by
  simp only [mem_spriteCells, State.length_loadBytes, State.getElem_loadBytes, Nat.zero_add,
    Prod.mk.injEq, rowOf, colOf, Fin.ext_iff, SpriteBit, and_assoc, exists_prop]

theorem length_loadBytes_le (s : State) (n : Nibble) :
    (s.loadBytes s.base n.toNat).length ≤ 32 := by
  have hn : n.toNat < 16 := n.isLt
  rw [State.length_loadBytes]; omega

theorem cell_drawn_of_bit (h : SpriteBit s x y n row col) :
    Gfx.cell (s.drawn x y n).1 row col = !Gfx.cell s.gfx row col := by
  have hcell := (drawRows_spec (s.v x).toNat (s.v y).toNat 0 _ (length_loadBytes_le s n)
    (s.gfx, false)).1 row col
  rw [State.drawn, hcell, decide_eq_true (mem_spriteCells_iff.2 h), Bool.xor_true]

theorem cell_drawn_of_not_bit (h : ¬ SpriteBit s x y n row col) :
    Gfx.cell (s.drawn x y n).1 row col = Gfx.cell s.gfx row col := by
  have hcell := (drawRows_spec (s.v x).toNat (s.v y).toNat 0 _ (length_loadBytes_le s n)
    (s.gfx, false)).1 row col
  rw [State.drawn, hcell, decide_eq_false (mt mem_spriteCells_iff.1 h), Bool.xor_false]

theorem drawn_collides_iff : (s.drawn x y n).2 = true ↔
    ∃ row col, SpriteBit s x y n row col ∧ Gfx.cell s.gfx row col = true := by
  have hflag := (drawRows_spec (s.v x).toNat (s.v y).toNat 0 _ (length_loadBytes_le s n)
    (s.gfx, false)).2
  rw [State.drawn, hflag]
  simp only [Bool.false_or, List.any_eq_true, Prod.exists, mem_spriteCells_iff]

end Drawn

/-! ### The statements -/

/-- Settles O41: the drawing loops flip the cells with a sprite bit and no others, and the flag they
return says whether one of these was on. -/
theorem drwDrawsByExclusiveOr : Obligations.DrwDrawsByExclusiveOr := by
  intro x y n s hin
  have hin : n.toNat = 0 ∨ s.base + n.toNat ≤ memSize := hin.imp_left fun h => by rw [h]; rfl
  refine ⟨_, (exec_drw x y n s).trans (inBounds_of_le _ hin), ?flips, ?keeps, ?collides, ?misses,
    ?registers, rfl, rfl, rfl, fun _ => rfl⟩
  case flips => exact fun row col h => cell_drawn_of_bit h
  case keeps => exact fun row col h => cell_drawn_of_not_bit h
  case collides =>
    intro h
    simp [drawn_collides_iff.2 h, flagByte]
  case misses =>
    intro h
    have hnone : ¬ (s.drawn x y n).2 = true := fun hc => by
      obtain ⟨row, col, hbit, hon⟩ := drawn_collides_iff.1 hc
      rw [h row col hbit] at hon; cases hon
    simp [hnone, flagByte]
  case registers =>
    intro r hr
    simp [hr]

/-- Settles O42: with x and y not F the second draw finds the sprite where the first did, so it
flips the same cells back, and meets a cell that is on exactly where the first turned one on. -/
theorem drawTwiceRestores : Obligations.DrawTwiceRestores := by
  intro x y n s hx hy hin
  obtain ⟨t, ht, hflips, hkeeps, -, -, hv, -, -, hframe, hmem⟩ :=
    drwDrawsByExclusiveOr x y n s hin
  have hbase : t.base = s.base := by rw [hframe]; rfl
  obtain ⟨u, hu, hflips', hkeeps', hcollides, hmisses, -⟩ :=
    drwDrawsByExclusiveOr x y n t (hbase ▸ hin)
  have hbit (row col) : SpriteBit t x y n row col ↔ SpriteBit s x y n row col := by
    simp only [SpriteBit, hv x hx, hv y hy, hbase, hmem _]
  refine ⟨t, u, ht, hu, Gfx.ext_cell fun row col => ?_, ?_⟩
  · by_cases h : SpriteBit s x y n row col
    · rw [hflips' row col ((hbit row col).2 h), hflips row col h, Bool.not_not]
    · rw [hkeeps' row col (mt (hbit row col).1 h), hkeeps row col h]
  · refine ⟨fun hu => ?_, fun ⟨row, col, hoff, hon⟩ => ?_⟩
    · by_contra hnone
      have hall (row col) (h : SpriteBit t x y n row col) : Gfx.cell t.gfx row col = false := by
        by_contra hon
        rw [Bool.not_eq_false] at hon
        have hoff := hflips row col ((hbit row col).1 h)
        rw [hon, eq_comm, Bool.not_eq_true'] at hoff
        exact hnone ⟨row, col, hoff, hon⟩
      rw [hmisses hall] at hu
      exact absurd hu (by decide)
    · have h : SpriteBit s x y n row col := by
        by_contra h
        rw [hkeeps row col h, hoff] at hon
        cases hon
      exact hcollides ⟨row, col, (hbit row col).2 h, hon⟩

end Sys2Proof.Machine
end

section
/-! PROOF. Returns, and the arithmetic that writes a flag (spec/40_control_flow.md,
spec/42_load_alu.md): what each flag and result is as a number, the rows of R82 to R86, and the
statements. -/

namespace Sys2Proof.Machine

/-! ### Returns (R65, R67) -/

/-- Settles O14: with SP above 16 the stack has no entry below SP, so RET reads the free value. -/
theorem retAboveTheStack : Obligations.RetAboveTheStack := by
  intro s habove
  have hne : s.sp ≠ 0 := fun e => by simp [e] at habove
  exact ⟨_, exec_ret_of_ne hne, State.drop_sp_toNat hne,
    congrArg (· + 2) (State.drop_stackAtSp_above habove), rfl, fun _ => rfl⟩

/-- Settles O18: the call left its address in the entry below SP, which RET reads back. -/
theorem returnGoesBehindTheCall : Obligations.ReturnGoesBehindTheCall := by
  intro nnn s t u hcall hstack hsp
  have hlt : s.sp.toNat < 16 := by
    by_contra hge
    rw [exec_call_of_full nnn (Nat.le_of_not_lt hge)] at hcall
    cases hcall
  rw [exec_call_of_lt nnn hlt] at hcall
  cases hcall
  have hu : u.sp.toNat = s.sp.toNat + 1 := hsp ▸ State.push_sp_toNat s.pc hlt
  have hne : u.sp ≠ 0 := fun e => by simp [e] at hu
  have hdrop : u.drop.sp = s.sp := by rw [State.drop_sp, hsp]; exact BitVec.add_sub_cancel s.sp 1
  have hentry : u.drop.stackAtSp = s.pc := by
    rw [State.drop_stackAtSp hlt hu]
    simp only [hstack]
    exact State.push_stack_at_sp s.pc hlt
  rw [exec_ret_of_ne hne, hentry, ← hdrop]
  rfl

/-! ### Flags and results as numbers (R75) -/

theorem toNat_flagByte (f : Bool) : (flagByte f).toNat = if f then 1 else 0 := by
  cases f <;> rfl

theorem toNat_flagByte_of_iff {f : Bool} {P : Prop} [Decidable P] (h : f = true ↔ P) :
    (flagByte f).toNat = if P then 1 else 0 := by
  rw [toNat_flagByte]; simp only [h]

theorem toNat_carries (a b : Byte) :
    (flagByte (carries a b)).toNat = if a.toNat + b.toNat > 255 then 1 else 0 :=
  toNat_flagByte_of_iff decide_eq_true_iff

theorem toNat_noBorrow (a b : Byte) :
    (flagByte (noBorrow a b)).toNat = if a.toNat ≥ b.toNat then 1 else 0 :=
  toNat_flagByte_of_iff decide_eq_true_iff

theorem toNat_sub (a b : Byte) :
    (a - b).toNat = if a.toNat ≥ b.toNat then a.toNat - b.toNat else a.toNat + 256 - b.toNat := by
  have ha : a.toNat < 256 := a.isLt
  have hb : b.toNat < 256 := b.isLt
  rw [BitVec.toNat_sub]
  split <;> omega

theorem getLsbD_iff (a : Byte) (k : Nat) : a.getLsbD k = true ↔ a.toNat / 2 ^ k % 2 = 1 := by
  rw [BitVec.getLsbD, Nat.testBit_eq_decide_div_mod_eq, decide_eq_true_iff]

theorem toNat_lowBit (a : Byte) : (flagByte (lowBit a)).toNat = a.toNat % 2 := by
  rw [lowBit, toNat_flagByte_of_iff (getLsbD_iff a 0)]
  split <;> omega

theorem toNat_topBit (a : Byte) : (flagByte (topBit a)).toNat = a.toNat / 128 := by
  have ha : a.toNat < 256 := a.isLt
  rw [topBit, toNat_flagByte_of_iff (getLsbD_iff a 7)]
  split <;> omega

theorem toNat_shiftRight_one (a : Byte) : (a >>> 1).toNat = a.toNat / 2 := by
  rw [BitVec.toNat_ushiftRight, Nat.shiftRight_eq_div_pow]

theorem toNat_shiftLeft_one (a : Byte) : (a <<< 1).toNat = a.toNat * 2 % 256 := by
  rw [BitVec.toNat_shiftLeft, Nat.shiftLeft_eq]

/-! ### The four rows of a flag instruction (D2) -/

/-- An instruction that writes a flag and then a result, in the terms of the statements, from what
its flag and its result are as numbers. -/
theorem flagThenResult_of_exec {i : Instr} {x y : Nibble} {flag : Byte → Byte → Bool}
    {result : Byte → Byte → Byte} {f g : Nat → Nat → Nat}
    (h : ∀ s, exec i s = flagThenResult flag result x y s)
    (hf : ∀ a b, (flagByte (flag a b)).toNat = f a.toNat b.toNat)
    (hg : ∀ a b, (result a b).toNat = g a.toNat b.toNat) : FlagThenResult i x y f g := by
  intro s
  refine ⟨_, (h s).trans (flagThenResult_eq flag result x y s), ?_, ?_, ?_, ?_, ?_, rfl, rfl,
    fun _ => rfl⟩
  · intro hx hy
    simp [hx, hy, Ne.symm hx, hf, hg]
  · intro hx hy
    simp [hx, hy, Ne.symm hx, hf, hg]
  · intro hx hy
    simp [hx, hy, hf, hg]
  · intro hx hy
    simp [hx, hy, hf, hg]
  · intro r hrx hrv
    simp [hrx, hrv]

/-- A shift is a flag instruction of one operand. -/
theorem shiftsInPlace_of_flagThenResult {i : Instr} {x : Nibble} {f g : Nat → Nat}
    (h : FlagThenResult i x x (fun a _ => f a) (fun a _ => g a)) : ShiftsInPlace i x f g := by
  intro s
  obtain ⟨t, ht, hother, -, -, hvf, hrest⟩ := h s
  exact ⟨t, ht, fun hx => hother hx hx, fun hx => hvf hx hx, hrest⟩

/-! ### The statements -/

/-- Settles O25: the flag is the carry of the sum, the result the sum mod 256. -/
theorem addRegCarries : Obligations.AddRegCarries := fun x y =>
  flagThenResult_of_exec (exec_addReg x y) toNat_carries BitVec.toNat_add

/-- Settles O26: the flag compares V[x] with V[y], the result is their wrapping difference. -/
theorem subReportsNoBorrow : Obligations.SubReportsNoBorrow := fun x y =>
  flagThenResult_of_exec (exec_sub x y) toNat_noBorrow toNat_sub

/-- Settles O27: as SUB with the operands the other way round. -/
theorem subnReportsNoBorrow : Obligations.SubnReportsNoBorrow := fun x y =>
  flagThenResult_of_exec (exec_subn x y) (fun a b => toNat_noBorrow b a) (fun a b => toNat_sub b a)

/-- Settles O28: bit 0 is the remainder by 2, the shift the quotient. -/
theorem shrShiftsInPlace : Obligations.ShrShiftsInPlace := fun x y =>
  shiftsInPlace_of_flagThenResult <|
    flagThenResult_of_exec (exec_shr x y) (fun a _ => toNat_lowBit a)
      fun a _ => toNat_shiftRight_one a

/-- Settles O29: bit 7 is the quotient by 128, the shift the double mod 256. -/
theorem shlShiftsInPlace : Obligations.ShlShiftsInPlace := fun x y =>
  shiftsInPlace_of_flagThenResult <|
    flagThenResult_of_exec (exec_shl x y) (fun a _ => toNat_topBit a)
      fun a _ => toNat_shiftLeft_one a

/-- Settles O30: RND writes the masked byte of this draw to V[x] once the draw is counted. -/
theorem rndMasksTheFreeByte : Obligations.RndMasksTheFreeByte := by
  intro x nn s
  refine ⟨_, (exec_rnd x nn s).trans (writeV_eq _ _ _), ?value, rfl, ?bits, ?registers, rfl, rfl,
    fun _ => rfl⟩
  case value => simp
  case bits =>
    intro k _ hk
    simp [hk]
  case registers =>
    intro r hr
    simp [hr]

end Sys2Proof.Machine
end

section
/-! PROOF. The index register and memory (spec/43_index_memory.md): what a store leaves in memory
and a load in the registers, and the statements about them. -/

namespace Sys2Proof.Machine

/-! ### I (R90, R91) -/

/-- Settles O31: LD I answers its state with I the zero-extended field, whatever the policy. -/
theorem ldILoadsAddress : Obligations.LdILoadsAddress := fun nnn =>
  writesI_of_exec (fun s => exec_ldI nnn s) fun _ => addrOf_toNat nnn

theorem toNat_wrapIndex_mod65536 (n : Nat) : (wrapIndex .mod65536 n).toNat = n % 65536 := by
  rw [wrapIndex, BitVec.toNat_ofNat]; omega

/-- Settles O32: I receives the sum as `FX1E_WRAP` reduces it; VF is the one register written, and
`FX1E_VF` says with what. -/
theorem addIUnderBothParameters : Obligations.AddIUnderBothParameters := by
  intro x s
  obtain ⟨b, hexec, hwrites, hunchanged⟩ := exec_addI x s
  refine ⟨_, hexec, ?mod4096, ?mod65536, ?writes, ?unchanged, ?registers, rfl, rfl, fun _ => rfl⟩
  case mod4096 =>
    intro hw
    simp only [State.setPc_i, State.setV_i, State.setI_i, hw, toNat_wrapIndex_mod4096]
  case mod65536 =>
    intro hw
    simp only [State.setPc_i, State.setV_i, State.setI_i, hw, toNat_wrapIndex_mod65536]
  case writes =>
    intro hw
    simp [hwrites hw, flagByte, exceeds12]
  case unchanged =>
    intro hw
    simp [hunchanged hw]
  case registers =>
    intro r hr
    simp [hr]

/-! ### Stores (R93, R94) -/

/-- Settles O34: the three bytes stored are the digits, each below 256, and a store leaves all other
bytes. -/
theorem ldBStoresDigits : Obligations.LdBStoresDigits := by
  intro x s hm hle
  have hx : (s.v x).toNat < 256 := (s.v x).isLt
  have hin : s.base + (decimalDigits (s.v x)).length ≤ memSize := hle
  have hdigit {k n : Nat} (hk : k < 3) (hn : n < 256)
      (hd : (decimalDigits (s.v x))[k] = BitVec.ofNat 8 n) :
      ((s.storeBytes s.base (decimalDigits (s.v x))).readByte (s.base + k)).toNat = n := by
    rw [State.readByte_storeBytes_inside hm hin hk, hd, BitVec.toNat_ofNat, Nat.mod_eq_of_lt hn]
  refine ⟨_, (exec_ldB x s).trans (inBounds_of_le _ (.inr hin)), ?hundreds, ?tens, ?units, ?others,
    rfl, ?frame⟩
  case hundreds => exact hdigit (k := 0) (by decide) (by omega) rfl
  case tens => exact hdigit (k := 1) (by decide) (by omega) rfl
  case units => exact hdigit (k := 2) (by decide) (by omega) rfl
  case others =>
    intro a ha
    exact State.readByte_storeBytes_outside hm (.inr hin) (ha.imp_right Nat.succ_le_of_lt)
  case frame => rw [State.storeBytes_eq_setMem]; rfl

section StoredRegisters

variable {x : Nibble} {s : State}

/-- The registers V[0] to V[x] as bytes stand inside the memory. -/
theorem base_add_length_regsUpTo_le (hle : s.base + x.toNat < 4096) :
    s.base + (s.regsUpTo x).length ≤ memSize := by
  rw [State.length_regsUpTo]; exact hle

theorem exec_stRegs_of_lt (hle : s.base + x.toNat < 4096) : exec (.stRegs x) s =
    .next (((s.storeBytes s.base (s.regsUpTo x)).setI (s.i + BitVec.ofNat 16 (x.toNat + 1))).setPc
      (s.pc + 2)) :=
  (exec_stRegs x s).trans (inBounds_of_le _ (.inr hle))

theorem exec_ldRegs_of_lt (hle : s.base + x.toNat < 4096) : exec (.ldRegs x) s =
    .next (((s.setRegs (fillRegs s.regs 0 (s.loadBytes s.base (x.toNat + 1)))).setI
      (s.i + BitVec.ofNat 16 (x.toNat + 1))).setPc (s.pc + 2)) :=
  (exec_ldRegs x s).trans (inBounds_of_le _ (.inr hle))

/-- Byte number k that LD [I], Vx stores is V[k]. -/
theorem readByte_storeBytes_regsUpTo (hm : s.mem.wf s.cfg.font) (hle : s.base + x.toNat < 4096)
    {k : Nibble} (hk : k.toNat ≤ x.toNat) :
    (s.storeBytes s.base (s.regsUpTo x)).readByte (s.base + k.toNat) = s.v k := by
  have hlen : k.toNat < (s.regsUpTo x).length := by rw [State.length_regsUpTo]; omega
  rw [State.readByte_storeBytes_inside hm (base_add_length_regsUpTo_le hle) hlen,
    State.getElem_regsUpTo]

end StoredRegisters

/-- Settles O35: the bytes stored are V[0] to V[x], and I + x + 1 still fits in 16 bits. -/
theorem stRegsStoresAndMovesI : Obligations.StRegsStoresAndMovesI := by
  intro x s hm hle
  refine ⟨_, exec_stRegs_of_lt hle, ?stored, ?others, State.toNat_i_add hle, rfl, ?frame⟩
  case stored => exact fun k hk => readByte_storeBytes_regsUpTo hm hle hk
  case others =>
    intro a ha
    refine State.readByte_storeBytes_outside hm (.inr (base_add_length_regsUpTo_le hle)) ?_
    rw [State.length_regsUpTo]
    exact ha.imp_right Nat.succ_le_of_lt
  case frame => rw [State.storeBytes_eq_setMem]; rfl

/-! ### Loads (R95) -/

/-- Settles O36: the registers up to x are filled from the bytes at I, the others are kept. -/
theorem ldRegsLoadsAndMovesI : Obligations.LdRegsLoadsAndMovesI := by
  intro x s hle
  refine ⟨_, exec_ldRegs_of_lt hle, ?loaded, ?others, State.toNat_i_add hle, rfl, rfl, fun _ => rfl⟩
  case loaded =>
    intro k hk
    exact (State.v_fillRegs_loadBytes s s.base x k).trans (if_pos hk)
  case others =>
    intro k hk
    exact (State.v_fillRegs_loadBytes s s.base x k).trans (if_neg (Nat.not_le_of_lt hk))

/-! ### Accesses outside the memory (D1) -/

/-- Settles O37: the check of each access, over as many bytes as it would touch, fails. -/
theorem dataAccessOutsideFaults : Obligations.DataAccessOutsideFaults := by
  refine fun x y n s => ⟨fun h => ?_, fun h => ⟨?_, ?_⟩, fun hn h => ?_⟩
  · exact exec_of_raises (.ldB x (Nat.lt_succ_of_le h))
  · exact exec_of_raises (.stRegs x (Nat.lt_succ_of_le h))
  · exact exec_of_raises (.ldRegs x (Nat.lt_succ_of_le h))
  · have hpos : n.toNat ≠ 0 := fun e => hn (BitVec.eq_of_toNat_eq e)
    exact exec_of_raises (.drw x y n hpos (show 4096 < s.base + n.toNat by omega))

/-! ### A store and what reads it back (R41, E7) -/

/-- Settles O38: the two bytes at the address fetched are V[k] and V[k + 1] as they were stored. -/
theorem storedBytesAreFetched : Obligations.StoredBytesAreFetched := by
  intro x k s t hm ht hk
  have hx : x.toNat < 16 := x.isLt
  have hle : s.base + x.toNat < 4096 := by
    rw [exec_stRegs] at ht
    exact (inBounds_next_of_pos (Nat.succ_ne_zero _) ht).1
  have hpc : (s.i + BitVec.ofNat 16 k.toNat).toNat = s.base + k.toNat :=
    State.toNat_i_add (show s.base + k.toNat ≤ 4096 by omega)
  have hsucc : (k + 1).toNat = k.toNat + 1 :=
    BitVec.toNat_add_of_lt (show k.toNat + 1 < 16 by omega)
  have hfirst := readByte_storeBytes_regsUpTo hm hle (k := k) (by omega)
  have hsecond := readByte_storeBytes_regsUpTo hm hle (k := k + 1) (by omega)
  rw [hsucc, ← Nat.add_assoc] at hsecond
  rw [exec_stRegs_of_lt hle] at ht
  cases ht
  rw [fetchWord_of_le (show (s.i + BitVec.ofNat 16 k.toNat).toNat ≤ 0x0FFE by omega)]
  simp only [State.setPc_pc, State.readByte_setPc, State.readByte_setI, hpc, hfirst, hsecond]

/-- Settles O39: with I set back the load reads V[0] to V[x] where the store left them, and keeps
the registers above x. -/
theorem storeThenLoadRestores : Obligations.StoreThenLoadRestores := by
  intro x s hm hle
  obtain ⟨t, ht, hstored, -, hi, -, hframe⟩ := stRegsStoresAndMovesI x s hm hle
  obtain ⟨u, hu, hloaded, habove, hi', -, -, hmem⟩ := ldRegsLoadsAndMovesI x (t.setI s.i) hle
  have hv (k : Nibble) : t.v k = s.v k := by rw [hframe]; rfl
  have hregs (k : Nibble) : u.v k = s.v k := by
    by_cases hk : k.toNat ≤ x.toNat
    · exact (hloaded k hk).trans (hstored k hk)
    · exact (habove k (Nat.lt_of_not_le hk)).trans (hv k)
  exact ⟨t, u, ht, hu, State.regs_ext hregs, hi, hi', hmem⟩

end Sys2Proof.Machine
end

section
/-! PROOF. The keypad, the sound timer and the host's transactions (spec/45_keypad_timers.md,
spec/60_exceptions.md section 6, spec/70_reset_and_hazards.md sections 1 and 2). -/

namespace Sys2Proof.Machine

/-! ### SKP and SKNP (R105, R106) -/

/-! The target of a skip, with PC in each branch. -/

theorem skip_target (pc : Word) (c : Bool) :
    (pc + if c then 4 else 2) = if c = true then pc + 4 else pc + 2 := add_ite ..

theorem skip_target_not (pc : Word) (c : Bool) :
    (pc + if !c then 4 else 2) = if c = true then pc + 2 else pc + 4 := by
  cases c <;> rfl

/-- Settles O43: a key number below 16 names its key under either policy, and the skip is on it or
on its negation. -/
theorem keySkipsOnKey : Obligations.KeySkipsOnKey := by
  refine fun x s h => ⟨⟨_, (exec_skp x s).trans (withKey_of_lt _ h), ?_, rfl, fun _ => rfl⟩,
    ⟨_, (exec_sknp x s).trans (withKey_of_lt _ h), ?_, rfl, fun _ => rfl⟩⟩
  · exact skip_target s.pc _
  · exact skip_target_not s.pc _

/-- Settles O44: above 15 the policy decides between the fault and the low four bits. -/
theorem keyNumberAbove15 : Obligations.KeyNumberAbove15 := by
  refine fun x s h => ⟨fun hp => ⟨?_, ?_⟩, fun hp k hk => ⟨?_, ?_⟩⟩
  · exact exec_of_raises (.skp x hp h)
  · exact exec_of_raises (.sknp x hp h)
  · rw [exec_skp, withKey_mask4 _ hp, skip_target]
    simp only [hk]
    rfl
  · rw [exec_sknp, withKey_mask4 _ hp, skip_target_not]
    simp only [hk]
    rfl

/-! ### The wait for a key (R107) -/

/-- The scan finds the key that is down with none below it. -/
theorem State.firstKey_eq_some {s : State} {k : Fin 16} (hk : s.keys[k] = true)
    (hbelow : ∀ j < k, s.keys[j] = false) : s.firstKey = some k := by
  cases h : s.firstKey with
  | none =>
    rw [State.firstKey_none h k] at hk
    cases hk
  | some j =>
    obtain ⟨hj, hj'⟩ := State.firstKey_some h
    rcases lt_trichotomy j k with hlt | rfl | hgt
    · rw [hbelow j hlt] at hj; cases hj
    · rfl
    · rw [hj' k hgt] at hk; cases hk

theorem State.firstKey_eq_none {s : State} (h : ∀ k : Fin 16, s.keys[k] = false) :
    s.firstKey = none :=
  List.find?_eq_none.2 fun k _ => by simp [h k]

/-- Settles O45: the scan finds the lowest key or none, and its number fits in a byte. -/
theorem keyWaitTakesLowestKey : Obligations.KeyWaitTakesLowestKey := by
  refine fun x s => ⟨fun k hk hbelow => ?_, fun hnone => ?_⟩
  · refine ⟨_, exec_ldVxK_of_some x (State.firstKey_eq_some hk hbelow), ?number, ?registers, rfl,
      rfl, fun _ => rfl⟩
    case number =>
      have hlt : k.val < 16 := k.isLt
      simp only [State.v_setPc, State.v_setV, if_true, BitVec.toNat_ofNat]
      omega
    case registers =>
      intro r hr
      simp [hr]
  · exact exec_ldVxK_of_none x (State.firstKey_eq_none hnone)

/-! ### The tone (R110, R135) -/

section Tone

variable {s t : State}

theorem State.tone_eq_true_iff : s.tone = true ↔ s.st ≠ 0 := decide_eq_true_iff

theorem State.tone_eq_false_iff : s.tone = false ↔ s.st = 0 :=
  decide_eq_false_iff_not.trans not_not

theorem toneEdge_on_iff : toneEdge s t = some .on ↔ s.st = 0 ∧ t.st ≠ 0 := by
  rw [← State.tone_eq_false_iff, ← State.tone_eq_true_iff, toneEdge]
  cases s.tone <;> cases t.tone <;> simp

theorem toneEdge_off_iff : toneEdge s t = some .off ↔ s.st ≠ 0 ∧ t.st = 0 := by
  rw [← State.tone_eq_true_iff, ← State.tone_eq_false_iff, toneEdge]
  cases s.tone <;> cases t.tone <;> simp

end Tone

/-- Settles O47: ST alone is written, and the edge is the change of ST from or to 0. -/
theorem soundTimerMovesTheTone : Obligations.SoundTimerMovesTheTone := fun x s =>
  ⟨_, exec_ldStVx x s, rfl, rfl, rfl, fun _ => rfl, toneEdge_on_iff, toneEdge_off_iff⟩

/-! ### Init and Load (R140, R144) -/

theorem readByte_init (s : State) (a : Nat) :
    s.init.readByte a = Memory.background s.cfg.font a := rfl

/-- Settles O48: the state after Init is the reset state with the parameters and the draw counter of
the one before, whose memory is the background everywhere. -/
theorem initWritesEverything : Obligations.InitWritesEverything := by
  rintro s t rfl
  refine ⟨rfl, rfl, rfl, rfl, ?registers, ?stack, ?keys, ?cells, ?font, ?rest, rfl, rfl, rfl, rfl,
    rfl, ?depends⟩
  case registers => exact fun x => Vector.getElem_replicate x.isLt
  case stack => exact fun k hk => Vector.getElem_replicate hk
  case keys => exact fun k => Vector.getElem_replicate k.isLt
  case cells => exact Gfx.cell_blank
  case font =>
    intro a ha
    exact (readByte_init s a).trans (dif_pos ha)
  case rest =>
    intro a ha
    exact (readByte_init s a).trans (dif_neg (Nat.not_lt_of_le ha))
  case depends =>
    intro s' hcfg hdraws
    simp only [Transaction.run, State.init, hcfg, hdraws]

/-- Settles O49: an image that fits is stored at 0x200, inside the memory; any other is refused
before anything is stored. -/
theorem loadPlacesTheImage : Obligations.LoadPlacesTheImage := by
  refine fun s image hm => ⟨fun hle => ?_, fun hgt => ?_⟩
  · have hfits : fits image = true := decide_eq_true hle
    have hin : progBase + image.length ≤ memSize := show 512 + image.length ≤ 4096 by omega
    refine ⟨s.storeBytes progBase image, if_pos hfits, if_pos hfits, fun j hj => ?_,
      fun a ha => ?_, ?_⟩
    · exact State.readByte_storeBytes_inside hm hin hj
    · exact State.readByte_storeBytes_outside hm (.inr hin) ha
    · exact State.storeBytes_eq_setMem s progBase image
  · have hfits : ¬ fits image = true := fun h => absurd (of_decide_eq_true h) (Nat.not_le_of_lt hgt)
    exact ⟨if_neg hfits, if_neg hfits⟩

/-! ### The other accesses of the host (R132 to R134) -/

/-- Settles O51: each access is an update of the one field it names, or of none. -/
theorem hostAccessesTouchOnePiece : Obligations.HostAccessesTouchOnePiece := by
  refine fun s k b => ⟨⟨s.setKey k b, rfl, fun j => ?_, rfl⟩, rfl, rfl, rfl⟩
  have hset : (s.setKey k b).keys[j] = if k.val = j.val then b else s.keys[j] :=
    Vector.getElem_set k.isLt j.isLt
  rw [hset]
  simp only [Fin.ext_iff, eq_comm]

end Sys2Proof.Machine
end
